-- ==== Sys2Proof/Word.lean ====
section
/-! DEFINITION. The word types of the QOI decoder: a byte (00_scope.md R8) and the 32-bit header number (R6). -/

namespace Sys2Proof

/-- A byte: 8 bits, bit 7 most significant (00_scope.md R8). -/
abbrev Byte := BitVec 8

/-- A 32-bit unsigned header number (00_scope.md R6, 10_state.md R31). -/
abbrev U32 := BitVec 32

end Sys2Proof
end

