-- ==== Sys2Proof/Config.lean ====
section
/-! DEFINITION. What an implementation fixes (the two open parameters of 00_scope.md R7) and the free values
(93_implementation_defined.md part 1, `any value`): constants with no body, so that no proof can rest on what they are. -/

namespace Sys2Proof.Config

/-- `MAX_OUT_BYTES` (00_scope.md R7, U1): the largest accepted product; OPEN in the spec. Log 3. -/
opaque maxOutBytes : Nat

/-- `IN_LEN_MAX` (00_scope.md R7, U2): the largest input length the host may present; `none` is R7's "the model may
also take it as unbounded". OPEN in the spec. Log 3. -/
opaque inLenMax : Option Nat

/-- FREE VALUE (U5, 70_reset_and_hazards.md R258): `unwrittenIn epoch a` is what offset `a` of `IN` reads as, where the
host has written nothing, in the decode numbered `epoch`. Log 2. -/
opaque unwrittenIn : Nat → Nat → Byte

/-- FREE VALUE (U10): `beyondOut draw k` is what the host's read numbered `draw` of `OUT` at an offset `k` not below
`OUT_LEN` answers. Log 12. -/
opaque beyondOut : Nat → Nat → Byte

end Sys2Proof.Config
end

