-- ==== Sys2Proof/Syntax.lean ====
section
/-! DEFINITION. The instructions: one constructor for each row of spec/opcode_table.json, carrying the fields of its
format (30_encoding.md R91 to R102) as they stand in the stream, before any bias is taken off. -/

namespace Sys2Proof

/-- The eight encodings of 30_encoding.md R90. START is a host command, not an encoding (40_header.md R130). -/
inductive Instr where
  /-- HDR, the header record (R91): width, height, channel byte, colorspace byte. -/
  | hdr (w h : U32) (c s : Byte)
  /-- END, the eight-byte end marker (R102). -/
  | endMarker
  /-- RGB (R100): tag byte `0xFE`, then r, g, b. -/
  | rgb (r g b : Byte)
  /-- RGBA (R101): tag byte `0xFF`, then r, g, b, a. -/
  | rgba (r g b a : Byte)
  /-- INDEX (R93): tag `00` and the entry number. -/
  | index (i : BitVec 6)
  /-- DIFF (R94): tag `01` and r_field, g_field, b_field. -/
  | diff (rf gf bf : BitVec 2)
  /-- LUMA (R95): tag `10` and g_field, then r_field and b_field in the second byte. -/
  | luma (gf : BitVec 6) (rf bf : BitVec 4)
  /-- RUN (R99): tag `11` and l, legal from 0 to 61; the run length is l + 1. -/
  | run (l : BitVec 6)
deriving DecidableEq, Repr

end Sys2Proof
end

