-- ==== Sys2Proof/Machine/State.lean ====
section
/-! DEFINITION. The machine's state (10_state.md), the reasons a step can stop, and the state after power-on reset
(R42). State is plain data: the host, the second agent of R39, stands in it as the list of its coming moves. -/

namespace Sys2Proof.Machine

/-- A pixel of four 8-bit lanes (R20, R24). -/
structure Pixel where
  r : Byte
  g : Byte
  b : Byte
  a : Byte
deriving DecidableEq, Repr

/-- All lanes 0, "transparent black" (R41). -/
def Pixel.zero : Pixel := ⟨0, 0, 0, 0⟩

/-- The START pixel, "opaque black" (R41). -/
def Pixel.opaqueBlack : Pixel := ⟨0, 0, 0, 255⟩

/-- `PHASE` (R30). The host reads it as a number (`Phase.code`); values 5 to 7 never occur. -/
inductive Phase where
  | idle
  | header
  | body
  | done
  | error
deriving DecidableEq, Repr

/-- The seven decode errors of the block (60_exceptions.md R210). -/
inductive DecodeError where
  | tooShort
  | badMagic
  | invalidChannels
  | dimensionsTooLarge
  | truncatedOperatorStream
  | unterminatedStream
  | sizeMismatch
deriving DecidableEq, Repr

/-- The registers of R36. -/
inductive Reg where
  | ctrl
  | inLen
  | phase
  | errCode
  | errInfo
  | hdrValid
  | width
  | height
  | channels
  | colorspace
  | expectedLen
  | outLen
  | pos
  | maxOutBytes
deriving DecidableEq, Repr

/-- What the outside world does between two steps of the block (R35, R36, R39, R44). -/
inductive HostMove where
  /-- The host writes a value to a register of R36. -/
  | writeReg (r : Reg) (v : Nat)
  /-- The host writes one byte of `IN`. -/
  | writeIn (offset : Nat) (b : Byte)
  /-- Power-on reset (R42). -/
  | powerOn
  /-- The host leaves the next step to the block. -/
  | wait
deriving DecidableEq, Repr

/-- A byte space (R37): offset and byte pairs, offsets strictly rising (`Memory.wf`); an offset not listed reads as no
value of its own. -/
abbrev Memory := List Host.Cell

/-- Everything the spec gives the machine (10_state.md), and two fields of the model's own, `epoch` and `inbox`. -/
structure State where
  /-- `PX`, the current pixel (R20). -/
  px : Pixel
  /-- `HIST`, the 64-entry index (R24). -/
  hist : Vector Pixel 64
  /-- `POS`, the byte cursor (R27). -/
  pos : Nat
  /-- `PHASE` (R30). -/
  phase : Phase
  /-- `HDR_VALID` (R30). -/
  hdrValid : Bool
  /-- `WIDTH` (R31). -/
  width : U32
  /-- `HEIGHT` (R31). -/
  height : U32
  /-- `CHANNELS` (R31): 3 is RGB mode, 4 is RGBA mode. -/
  channels : Byte
  /-- `COLORSPACE` (R31). -/
  colorspace : Byte
  /-- `EXPECTED_LEN` (R32). -/
  expectedLen : Nat
  /-- `OUT_LEN` (R33). -/
  outLen : Nat
  /-- `ERR_CODE` (R34); `none` is code 0. -/
  errCode : Option DecodeError
  /-- `ERR_INFO` (R34). -/
  errInfo : Byte
  /-- `IN_LEN` (R35). -/
  inLen : Nat
  /-- `IN` (R37). -/
  inMem : Memory
  /-- `OUT` (R37). -/
  outMem : Memory
  /-- `MAX_OUT_BYTES`, register 13 (R36): the parameter of 00_scope.md R7. -/
  maxOutBytes : Nat
  /-- `IN_LEN_MAX`: the parameter of 00_scope.md R7; `none` is unbounded. -/
  inLenMax : Option Nat
  /-- The model's own: how many STARTs there have been; it numbers the free values of unwritten input (log 2). -/
  epoch : Nat
  /-- The model's own: the host's coming moves, the next one first (log 4). -/
  inbox : List HostMove
deriving DecidableEq, Repr

/-- Why a step stops with a fault. -/
inductive Fault where
  /-- Raised by `step` when `PHASE` is `IDLE`, `DONE` or `ERROR` and the host has no move left: no step is enabled
  (10_state.md R39). It is the end of a run, not an error; safe. -/
  | quiescent
deriving DecidableEq, Repr

/-- Why a step is refused. -/
inductive Refusal where
  /-- Raised by `exec` for an instruction without a meaning; no arm does. Safe. -/
  | notModelled (mnemonic : String)
  /-- Raised by a host move that writes `IN` or `IN_LEN` while `PHASE` is `HEADER` or `BODY`: the spec gives the model
  no move for it (93 U6, R256). The spec says that this errs toward proving: unsafe. -/
  | hostWroteDuringDecode
  /-- Raised by a host move that writes an `IN_LEN` above `IN_LEN_MAX`, which the host must not do (R35, U2). Safe. -/
  | inLenAboveMax
  /-- Raised by a host move that writes `IN` at an offset not below `IN_LEN_MAX`: no input buffer reaches it (R7, R37).
  Safe. -/
  | inOffsetAboveMax
deriving DecidableEq, Repr

/-- The machine after power-on reset (R42 and the reset column of R36). `PX` and `HIST` are unspecified there and taken
as zero, which R42 allows (log 1). -/
def State.reset : State where
  px := Pixel.zero
  hist := Vector.replicate 64 Pixel.zero
  pos := 0
  phase := .idle
  hdrValid := false
  width := 0
  height := 0
  channels := 0
  colorspace := 0
  expectedLen := 0
  outLen := 0
  errCode := none
  errInfo := 0
  inLen := 0
  inMem := []
  outMem := []
  maxOutBytes := Config.maxOutBytes
  inLenMax := Config.inLenMax
  epoch := 0
  inbox := []

end Sys2Proof.Machine
end

