-- ==== Sys2Proof/Machine/Flags.lean ====
section
/-! DEFINITION. The two status flags (10_state.md R30; the block has no condition codes) and the code of an error
(60_exceptions.md R210), as the host reads them. -/

namespace Sys2Proof.Machine

/-- The value of `PHASE` (R30). -/
def Phase.code : Phase → Nat
  | .idle => 0
  | .header => 1
  | .body => 2
  | .done => 3
  | .error => 4

/-- `PHASE` is `IDLE`, `DONE` or `ERROR`: no step of the block is enabled (R39). -/
def Phase.isQuiescent : Phase → Bool
  | .idle => true
  | .header => false
  | .body => false
  | .done => true
  | .error => true

/-- The error code (60_exceptions.md R210). -/
def DecodeError.code : DecodeError → Nat
  | .tooShort => 1
  | .badMagic => 2
  | .invalidChannels => 3
  | .dimensionsTooLarge => 4
  | .truncatedOperatorStream => 5
  | .unterminatedStream => 6
  | .sizeMismatch => 7

/-- The value of `ERR_CODE` (10_state.md R34). -/
def errCodeValue : Option DecodeError → Nat
  | none => 0
  | some e => e.code

/-- The value of `HDR_VALID` (R30). -/
def flagValue (b : Bool) : Nat := if b then 1 else 0

/-- Set `PHASE`, nothing else. -/
def State.setPhase (p : Phase) (s : State) : State := { s with phase := p }

end Sys2Proof.Machine
end

