-- ==== Sys2Proof/Machine/Operands.lean ====
section
/-! DEFINITION. Every operand form of 30_encoding.md section 2: bias subtraction, run length, the exact header product,
and the two forms a pixel has (10_state.md R21, R26). -/

namespace Sys2Proof.Machine

/-- The channel mode (00_scope.md R11). -/
inductive Mode where
  | rgb
  | rgba
deriving DecidableEq, Repr

/-- The mode `CHANNELS` selects (R31). A `BODY` state has 3 or 4 there; the other values, which no decode reaches, are
read as RGB (log 10). -/
def modeOf (channels : Byte) : Mode := if channels = 4 then .rgba else .rgb

/-- `cs`, the bytes of a pixel (00_scope.md R9). -/
def Mode.size : Mode → Nat
  | .rgb => 3
  | .rgba => 4

/-- DIFF's delta, `(field − 2) mod 256` (30_encoding.md R96). -/
def diffDelta (field : BitVec 2) : Byte := field.setWidth 8 - 2

/-- LUMA's green delta, `(g_field − 32) mod 256` (R97). -/
def lumaGreen (gf : BitVec 6) : Byte := gf.setWidth 8 - 32

/-- LUMA's red or blue delta, `(field − 8 + dg) mod 256` (R98). -/
def lumaChroma (field : BitVec 4) (dg : Byte) : Byte := field.setWidth 8 - 8 + dg

/-- INDEX's entry number: the field itself, nothing hashed (42_index.md R160). -/
def entryNumber (i : BitVec 6) : Fin 64 := i.toFin

/-- RUN's repeat count, l + 1 (R99). -/
def runLength (l : BitVec 6) : Nat := l.toNat + 1

/-- `w * h * c`, exact, with no wrap-around (40_header.md R127). -/
def headerProduct (w h : U32) (c : Byte) : Nat := w.toNat * h.toNat * c.toNat

/-- A pixel written over an old one: all four lanes in RGBA mode; r, g, b in RGB mode, where no rule writes an a lane
(10_state.md R21, R26). -/
def Mode.merge (m : Mode) (new old : Pixel) : Pixel :=
  match m with
  | .rgba => new
  | .rgb => { new with a := old.a }

/-- The alpha the hash uses: `PX.a` in RGBA mode, the constant 255 in RGB mode (41_operator_step.md R148). -/
def Mode.hashAlpha (m : Mode) (p : Pixel) : Nat :=
  match m with
  | .rgba => p.a.toNat
  | .rgb => 255

/-- `(r*3 + g*5 + b*7 + a*11) mod 64` (R148). -/
def pixelHash (m : Mode) (p : Pixel) : Fin 64 :=
  Fin.ofNat 64 (p.r.toNat * 3 + p.g.toNat * 5 + p.b.toNat * 7 + m.hashAlpha p * 11)

/-- The bytes of one pixel in output order, r at the lowest offset (20_memory.md R62). -/
def pixelBytes (m : Mode) (p : Pixel) : List Byte :=
  match m with
  | .rgba => [p.r, p.g, p.b, p.a]
  | .rgb => [p.r, p.g, p.b]

/-- The bytes of `n` copies of one pixel (41_operator_step.md R150). -/
def repeatedPixel (n : Nat) (m : Mode) (p : Pixel) : List Byte :=
  (List.replicate n (pixelBytes m p)).flatten

/-- Add three deltas to the colour lanes, each modulo 256 and independent of the others; alpha is untouched
(43_diff_luma.md R170, R171). -/
def addDeltas (dr dg db : Byte) (p : Pixel) : Pixel :=
  { p with r := p.r + dr, g := p.g + dg, b := p.b + db }

end Sys2Proof.Machine
end

