-- ==== Sys2Proof/Machine/Ops.lean ====
section
/-! DEFINITION. The named operations over memory and registers: the byte spaces, the common tail of every operator
(41_operator_step.md R147 to R151), taking an error (60_exceptions.md R218) and START, the only way out of one (R223). -/

namespace Sys2Proof.Machine

/-! ## Byte spaces -/

/-- The canonical form: offsets strictly rising. An unlisted offset reads as `none`, which no entry equals. -/
def Memory.wf : Memory → Bool
  | [] => true
  | [_] => true
  | c :: d :: rest => decide (c.1 < d.1) && Memory.wf (d :: rest)

/-- The byte listed at an offset, if one is. -/
def Memory.read : Memory → Nat → Option Byte
  | [], _ => none
  | c :: rest, a => if c.1 = a then some c.2 else Memory.read rest a

/-- Write one byte, keeping the offsets rising. -/
def Memory.write : Memory → Nat → Byte → Memory
  | [], a, b => [(a, b)]
  | c :: rest, a, b =>
    if a < c.1 then (a, b) :: c :: rest
    else if a = c.1 then (a, b) :: rest
    else c :: Memory.write rest a b

/-- Write bytes at rising offsets from `a` (`MemWrite`, 00_scope.md R9). -/
def Memory.writeBytes : Memory → Nat → List Byte → Memory
  | m, _, [] => m
  | m, a, b :: bs => Memory.writeBytes (Memory.write m a b) (a + 1) bs

/-- `IN[a]`: the byte the host wrote there, else a free value fixed at START (93 U5, log 2). -/
def State.inByte (s : State) (a : Nat) : Byte :=
  (s.inMem.read a).getD (Config.unwrittenIn s.epoch a)

/-- `MemRead(a, n)` (00_scope.md R9). -/
def State.inBytes (s : State) (a n : Nat) : List Byte :=
  (List.range n).map fun j => s.inByte (a + j)

/-! ## The mode and the pixel registers -/

/-- The mode of the current decode (10_state.md R31). -/
def State.mode (s : State) : Mode := modeOf s.channels

/-- `cs` (00_scope.md R9). -/
def State.cs (s : State) : Nat := s.mode.size

/-- Write `PX`, the lanes the mode has (R21, R22). -/
def State.setPx (p : Pixel) (s : State) : State := { s with px := s.mode.merge p s.px }

/-- The entry the current pixel is stored at (41_operator_step.md R148). -/
def State.hashIndex (s : State) : Fin 64 := pixelHash s.mode s.px

/-- `HIST[hash(PX)] <- PX`, the lanes the mode has (R149, 10_state.md R26). -/
def State.storeHist (s : State) : State :=
  { s with hist := s.hist.set s.hashIndex (s.mode.merge s.px s.hist[s.hashIndex]) }

/-- Append `n` copies of the current pixel to `OUT` (R150). -/
def State.appendPixels (n : Nat) (s : State) : State :=
  { s with
    outMem := s.outMem.writeBytes s.outLen (repeatedPixel n s.mode s.px)
    outLen := s.outLen + n * s.cs }

/-- `POS <- POS + 1 + k`, past the tag byte and its `k` operand bytes (R151). -/
def State.advance (k : Nat) (s : State) : State := { s with pos := s.pos + 1 + k }

/-- The common tail, once an operator has set `PX` (R147): hash and index store, then `n` copies appended, then the
advance past `k` operand bytes. -/
def State.commonTail (n k : Nat) (s : State) : State :=
  ((s.storeHist).appendPixels n).advance k

/-! ## The input, as the host writes it (R35, R37) -/

/-- One byte of `IN`. -/
def State.writeInput (offset : Nat) (b : Byte) (s : State) : State := { s with inMem := s.inMem.write offset b }

/-- `IN_LEN`. -/
def State.setInLen (n : Nat) (s : State) : State := { s with inLen := n }

/-! ## The header registers -/

/-- Publish a header whose first three checks passed (40_header.md R120, R127). -/
def State.publishHeader (w h : U32) (c col : Byte) (s : State) : State :=
  { s with
    width := w
    height := h
    channels := c
    colorspace := col
    hdrValid := true
    expectedLen := headerProduct w h c }

/-- The successful end of the header step (R128). -/
def State.enterBody (s : State) : State := { s with pos := 14, phase := .body }

/-! ## Taking an error, and START -/

/-- `raise E(info)`, the whole of the block's trap mechanism (60_exceptions.md R218). -/
def State.raise (e : DecodeError) (info : Byte) (s : State) : State :=
  { s with
    errCode := some e
    errInfo := if e = .invalidChannels then info else 0
    phase := .error }

/-- What START writes (10_state.md R41, 40_header.md R130). The free values of unwritten input are drawn anew: `epoch`
moves on (log 2). -/
def State.startDecode (s : State) : State :=
  { s with
    px := Pixel.opaqueBlack
    hist := Vector.replicate 64 Pixel.zero
    pos := 0
    phase := .header
    hdrValid := false
    width := 0
    height := 0
    channels := 0
    colorspace := 0
    expectedLen := 0
    outLen := 0
    errCode := none
    errInfo := 0
    outMem := []
    epoch := s.epoch + 1 }

/-- START (R130): ignored while a decode runs (R260). There is no return from an error but this (R223). -/
def State.start (s : State) : State := if s.phase.isQuiescent then s.startDecode else s

/-- Power-on reset of a running machine (R42): the parameters are not state (R40), the host's list is not the block's,
and the numbering of free values goes on (log 14). -/
def State.powerOn (s : State) : State :=
  { State.reset with
    maxOutBytes := s.maxOutBytes
    inLenMax := s.inLenMax
    epoch := s.epoch
    inbox := s.inbox }

/-- The rest of the host's moves. -/
def State.setInbox (moves : List HostMove) (s : State) : State := { s with inbox := moves }

end Sys2Proof.Machine
end

