-- ==== Sys2Proof/Machine/Delta.lean ====
section
/-! DEFINITION. The delta operators DIFF and LUMA (43_diff_luma.md). -/

namespace Sys2Proof.Machine

/-- `apply Diff(dr, dg, db)` (R170). -/
def State.applyDiff (dr dg db : Byte) (s : State) : State := s.setPx (addDeltas dr dg db s.px)

/-- DIFF (R172). -/
def execDiff (rf gf bf : BitVec 2) (s : State) : Host.Outcome State Fault Refusal :=
  .next ((s.applyDiff (diffDelta rf) (diffDelta gf) (diffDelta bf)).commonTail 1 0)

/-- LUMA (R174). -/
def execLuma (gf : BitVec 6) (rf bf : BitVec 4) (s : State) : Host.Outcome State Fault Refusal :=
  .next ((s.applyDiff (lumaChroma rf (lumaGreen gf)) (lumaGreen gf) (lumaChroma bf (lumaGreen gf))).commonTail 1 1)

end Sys2Proof.Machine
end

