-- ==== Sys2Proof/Machine/EndMarker.lean ====
section
/-! DEFINITION. END, the end of a decode (46_end_marker.md R200). -/

namespace Sys2Proof.Machine

/-- END (R200): the output-length check (R201), then `DONE`. `POS` stays at the marker; the common tail is not run. -/
def execEnd (s : State) : Host.Outcome State Fault Refusal :=
  if s.outLen ≠ s.expectedLen then .next (s.raise .sizeMismatch 0)
  else .next (s.setPhase .done)

end Sys2Proof.Machine
end

