-- ==== Sys2Proof/Machine/Header.lean ====
section
/-! DEFINITION. HDR, the header step's meaning once its fourteen bytes are decoded (40_header.md R120). -/

namespace Sys2Proof.Machine

/-- HDR (R120): the channel test (R124), then the header registers (R125, R126), then the dimension test (R127), then
`BODY` (R128). -/
def execHdr (w h : U32) (c col : Byte) (s : State) : Host.Outcome State Fault Refusal :=
  if c ≠ 3 ∧ c ≠ 4 then .next (s.raise .invalidChannels c)
  else if headerProduct w h c > s.maxOutBytes then
    .next ((s.publishHeader w h c col).raise .dimensionsTooLarge 0)
  else .next ((s.publishHeader w h c col).enterBody)

end Sys2Proof.Machine
end

