-- ==== Sys2Proof/Machine/Index.lean ====
section
/-! DEFINITION. The INDEX operator (42_index.md). -/

namespace Sys2Proof.Machine

/-- INDEX (R160): `PX` becomes entry i, read before the tail's store; an entry nothing has stored gives its START value
(R161). -/
def execIndex (i : BitVec 6) (s : State) : Host.Outcome State Fault Refusal :=
  .next ((s.setPx s.hist[entryNumber i]).commonTail 1 0)

end Sys2Proof.Machine
end

