-- ==== Sys2Proof/Machine/Literal.lean ====
section
/-! DEFINITION. The literal operators RGB and RGBA (44_rgb_rgba.md). -/

namespace Sys2Proof.Machine

/-- RGB (R181): set r, g, b; `PX.a` is neither read nor written, in either mode. -/
def execRgb (r g b : Byte) (s : State) : Host.Outcome State Fault Refusal :=
  .next ((s.setPx { s.px with r := r, g := g, b := b }).commonTail 1 3)

/-- RGBA (R183): set all four lanes in RGBA mode; in RGB mode the a operand is consumed and dropped (R184). -/
def execRgba (r g b a : Byte) (s : State) : Host.Outcome State Fault Refusal :=
  .next ((s.setPx ⟨r, g, b, a⟩).commonTail 1 4)

end Sys2Proof.Machine
end

