-- ==== Sys2Proof/Machine/Run.lean ====
section
/-! DEFINITION. The RUN operator (45_run.md). -/

namespace Sys2Proof.Machine

/-- RUN (R191): `PX` is left as it is; one index store and l + 1 pixels. -/
def execRun (l : BitVec 6) (s : State) : Host.Outcome State Fault Refusal :=
  .next (s.commonTail (runLength l) 0)

end Sys2Proof.Machine
end

