-- ==== Sys2Proof/Machine/Dispatch.lean ====
section
/-! DEFINITION. The dispatch: one arm for each constructor of `Instr` (41_operator_step.md R144, 40_header.md R120). -/

namespace Sys2Proof.Machine

def exec (i : Instr) (s : State) : Host.Outcome State Fault Refusal :=
  match i with
  | .hdr w h c col => Sys2Proof.Machine.execHdr w h c col s
  | .endMarker => Sys2Proof.Machine.execEnd s
  | .rgb r g b => Sys2Proof.Machine.execRgb r g b s
  | .rgba r g b a => Sys2Proof.Machine.execRgba r g b a s
  | .index n => Sys2Proof.Machine.execIndex n s
  | .diff rf gf bf => Sys2Proof.Machine.execDiff rf gf bf s
  | .luma gf rf bf => Sys2Proof.Machine.execLuma gf rf bf s
  | .run l => Sys2Proof.Machine.execRun l s

end Sys2Proof.Machine
end

