-- ==== Sys2Proof/WellFormed.lean ====
section
/-! DEFINITION. Which terms of `Instr` are instructions of the format. The field widths are in the types; the one value
check left is RUN's payload (30_encoding.md R99). A header record with any channel byte is well formed: it is an
encoding, and the header step rejects it with `InvalidChannels` (R104, 40_header.md R124). -/

namespace Sys2Proof

/-- R99: payloads 62 and 63 under tag `11` are RGB and RGBA, never RUN. -/
def runPayloadLegal (l : BitVec 6) : Bool := decide (l.toNat ≤ 61)

/-- The well-formed instructions. -/
def Instr.wf : Instr → Bool
  | .hdr _ _ _ _ => true
  | .endMarker => true
  | .rgb _ _ _ => true
  | .rgba _ _ _ _ => true
  | .index _ => true
  | .diff _ _ _ => true
  | .luma _ _ _ => true
  | .run l => runPayloadLegal l

end Sys2Proof
end

