-- ==== Sys2Proof/Decode.lean ====
section
/-! DEFINITION. The decoder (30_encoding.md, 41_operator_step.md R141 to R144, 40_header.md R122, R123), total on any
bytes and rejecting by name, and the encoder written from the same formats (R91 to R102). -/

namespace Sys2Proof

/-! ## Fields (30_encoding.md R92 to R95) -/

/-- `op[7:6]`, the tag (R92). -/
def tagOf (op : Byte) : BitVec 2 := op.extractLsb' 6 2

/-- `op[5:0]`, the payload (R92). -/
def payloadOf (op : Byte) : BitVec 6 := op.extractLsb' 0 6

/-- DIFF's r_field, `op[5:4]` (R94). -/
def diffRed (op : Byte) : BitVec 2 := op.extractLsb' 4 2

/-- DIFF's g_field, `op[3:2]` (R94). -/
def diffGreen (op : Byte) : BitVec 2 := op.extractLsb' 2 2

/-- DIFF's b_field, `op[1:0]` (R94). -/
def diffBlue (op : Byte) : BitVec 2 := op.extractLsb' 0 2

/-- LUMA's r_field, the high nibble of the second byte (R95). -/
def highNibble (next : Byte) : BitVec 4 := next.extractLsb' 4 4

/-- LUMA's b_field, the low nibble of the second byte (R95). -/
def lowNibble (next : Byte) : BitVec 4 := next.extractLsb' 0 4

/-- `be32` (00_scope.md R9, 20_memory.md R60). -/
def be32 (b0 b1 b2 b3 : Byte) : U32 :=
  BitVec.ofNat 32 (b0.toNat * 2 ^ 24 + b1.toNat * 2 ^ 16 + b2.toNat * 2 ^ 8 + b3.toNat)

/-! ## Fixed bytes -/

/-- The end marker (R102). -/
def endMarkerBytes : List Byte := [0, 0, 0, 0, 0, 0, 0, 1]

/-- The magic `q`, `o`, `i`, `f` in ASCII (R91; 93_implementation_defined.md G1, log 13). -/
def magicBytes : List Byte := [0x71, 0x6F, 0x69, 0x66]

/-! ## Decoding -/

/-- Why the bytes hold no instruction. The machine turns each into the decode error of the same rule. -/
inductive DecodeReject where
  /-- Fewer than 14 bytes for the header record (40_header.md R122). -/
  | tooShort
  /-- The first four bytes are not the magic (R123). -/
  | badMagic
  /-- No byte is left at an operator boundary (41_operator_step.md R142). -/
  | exhausted
  /-- The operator needs more operand bytes than are left (R143). -/
  | truncated
deriving DecidableEq, Repr

/-- What the decoder answers. -/
inductive Decoded where
  | instr (i : Instr)
  | reject (r : DecodeReject)
deriving DecidableEq, Repr

/-- The fields after the magic (R91): width, height, channels, colorspace. -/
def decodeHeaderFields : List Byte → Decoded
  | w0 :: w1 :: w2 :: w3 :: h0 :: h1 :: h2 :: h3 :: c :: s :: _ =>
    .instr (.hdr (be32 w0 w1 w2 w3) (be32 h0 h1 h2 h3) c s)
  | _ => .reject .tooShort

/-- The header record at the start of the bytes: the length is tested before the magic (40_header.md R121 to R123). -/
def decodeHeader (bs : List Byte) : Decoded :=
  if bs.length < 14 then .reject .tooShort
  else if bs.take 4 ≠ magicBytes then .reject .badMagic
  else decodeHeaderFields (bs.drop 4)

/-- The LUMA operands (R95): one byte. -/
def decodeLuma (op : Byte) : List Byte → Decoded
  | next :: _ => .instr (.luma (payloadOf op) (highNibble next) (lowNibble next))
  | [] => .reject .truncated

/-- The RGB operands (R100): three bytes, all or nothing (41_operator_step.md R143). -/
def decodeRgb : List Byte → Decoded
  | r :: g :: b :: _ => .instr (.rgb r g b)
  | _ => .reject .truncated

/-- The RGBA operands (R101): four bytes in both modes, all or nothing (R143). -/
def decodeRgba : List Byte → Decoded
  | r :: g :: b :: a :: _ => .instr (.rgba r g b a)
  | _ => .reject .truncated

/-- Tag `11` (R144): payload 62 is RGB, 63 is RGBA, any other is RUN. -/
def decodeTag3 (op : Byte) (operands : List Byte) : Decoded :=
  if payloadOf op = 62 then decodeRgb operands
  else if payloadOf op = 63 then decodeRgba operands
  else .instr (.run (payloadOf op))

/-- Dispatch on the tag byte (R144, 30_encoding.md R103 step 3). -/
def decodeTag (op : Byte) (operands : List Byte) : Decoded :=
  if tagOf op = 0 then .instr (.index (payloadOf op))
  else if tagOf op = 1 then .instr (.diff (diffRed op) (diffGreen op) (diffBlue op))
  else if tagOf op = 2 then decodeLuma op operands
  else decodeTag3 op operands

/-- One operator at the start of the bytes left in the stream, in the order of R103: the end marker first, then
exhaustion, then the tag byte. -/
def decodeOperator (bs : List Byte) : Decoded :=
  if bs.take 8 = endMarkerBytes then .instr .endMarker
  else match bs with
    | [] => .reject .exhausted
    | op :: operands => decodeTag op operands

/-! ## Encoding (30_encoding.md R91 to R102) -/

/-- A tag byte (R92): tag in bits 7:6, payload in bits 5:0. -/
def tagByte (tag : BitVec 2) (payload : BitVec 6) : Byte := tag ++ payload

/-- DIFF's payload `rrggbb` (R94). -/
def diffPayload (rf gf bf : BitVec 2) : BitVec 6 := rf ++ gf ++ bf

/-- LUMA's second byte (R95): r_field high, b_field low. -/
def lumaByte (rf bf : BitVec 4) : Byte := rf ++ bf

/-- Byte `k` of a 32-bit number, counted from the least significant. -/
def byteOfU32 (w : U32) (k : Nat) : Byte := BitVec.ofNat 8 (w.toNat / 2 ^ (8 * k))

/-- The four big-endian bytes of a header number (R91). -/
def be32Bytes (w : U32) : List Byte := [byteOfU32 w 3, byteOfU32 w 2, byteOfU32 w 1, byteOfU32 w 0]

/-- The bytes of an instruction. -/
def encode : Instr → List Byte
  | .hdr w h c s => magicBytes ++ be32Bytes w ++ be32Bytes h ++ [c, s]
  | .endMarker => endMarkerBytes
  | .rgb r g b => [0xFE, r, g, b]
  | .rgba r g b a => [0xFF, r, g, b, a]
  | .index i => [tagByte 0 i]
  | .diff rf gf bf => [tagByte 1 (diffPayload rf gf bf)]
  | .luma gf rf bf => [tagByte 2 gf, lumaByte rf bf]
  | .run l => [tagByte 3 l]

/-- The length column of R90. -/
def Instr.length : Instr → Nat
  | .hdr _ _ _ _ => 14
  | .endMarker => 8
  | .rgb _ _ _ => 4
  | .rgba _ _ _ _ => 5
  | .index _ => 1
  | .diff _ _ _ => 1
  | .luma _ _ _ => 2
  | .run _ => 1

/-! ## A word of spec/opcode_table.json -/

/-- The stream bytes of an encoding read as one number the way the table reads it: "whole encoding, first stream byte
most significant" (each row's match_scope). Log 8. -/
def tableBytes (nbits w : Nat) : List Byte :=
  (List.range ((nbits + 7) / 8)).map fun j => BitVec.ofNat 8 (w / 2 ^ (8 * ((nbits + 7) / 8 - 1 - j)))

/-- The table word followed by zero bytes, up to the 14 bytes of the longest encoding. -/
def tableStream (nbits w : Nat) : List Byte :=
  tableBytes nbits w ++ List.replicate (14 - (nbits + 7) / 8) 0

/-- Whether the word is a header record: the one encoding of 14 bytes, told by its length and its magic. It never
stands at an operator boundary (the table's note on HDR). -/
def isHeaderWord (nbits w : Nat) : Bool :=
  decide ((nbits + 7) / 8 = 14) && decide ((tableBytes nbits w).take 4 = magicBytes)

/-- The decoder's answer as an option. -/
def Decoded.toOption : Decoded → Option Instr
  | .instr i => some i
  | .reject _ => none

/-- The instruction the decoder reads from a table word. -/
def decodeTableWord (nbits w : Nat) : Option Instr :=
  if isHeaderWord nbits w then (decodeHeader (tableStream nbits w)).toOption
  else (decodeOperator (tableStream nbits w)).toOption

end Sys2Proof
end

