-- ==== Sys2Proof/Machine/Fetch.lean ====
section
/-! DEFINITION. Fetching: the bytes of `IN` a step reads (20_memory.md R65), what the decoder makes of them, and the
error each of its rejections is. Also the load that `State.withFetchWord` stands for (log 7). -/

namespace Sys2Proof.Machine

/-- The bytes the header step may read: offsets 0 to 13, as far as `IN_LEN` reaches (40_header.md R122, R129). -/
def State.headerWindow (s : State) : List Byte := s.inBytes 0 (min 14 s.inLen)

/-- The bytes an operator step may read: the eight bytes at `POS`, as far as `IN_LEN` reaches (41_operator_step.md
R141, R152). No operator is longer than five bytes. -/
def State.streamWindow (s : State) : List Byte := s.inBytes s.pos (min 8 (s.inLen - s.pos))

/-- What the enabled step decodes: the header record in `HEADER`, an operator otherwise. -/
def State.fetch (s : State) : Decoded :=
  match s.phase with
  | .header => decodeHeader s.headerWindow
  | _ => decodeOperator s.streamWindow

/-- The decode error of a rejection (60_exceptions.md R211, R212, R215, R216). -/
def rejectError : DecodeReject → DecodeError
  | .tooShort => .tooShort
  | .badMagic => .badMagic
  | .exhausted => .unterminatedStream
  | .truncated => .truncatedOperatorStream

/-! ## Loading one instruction from outside -/

/-- The input buffer holds `bs` from offset `a`, and ends there. -/
def State.loadInput (a : Nat) (bs : List Byte) (s : State) : State :=
  { s with inMem := s.inMem.writeBytes a bs, inLen := a + bs.length, inbox := [] }

/-- A state whose next step is an operator step: the state itself in `BODY`; otherwise what START and the header step of
a 0 × 0 RGBA header leave (log 7). -/
def State.atOperator (s : State) : State :=
  match s.phase with
  | .body => s
  | _ => ((s.startDecode).publishHeader 0 0 4 0).enterBody

/-- Place a table word where the next step fetches: a header record at offset 0 in `HEADER`, an operator at `POS` in
`BODY`. -/
def State.placeWord (nbits w : Nat) (s : State) : State :=
  if isHeaderWord nbits w then (s.startDecode).loadInput 0 (tableStream nbits w)
  else (s.atOperator).loadInput s.atOperator.pos (tableStream nbits w)

end Sys2Proof.Machine
end

