-- ==== Sys2Proof/Machine/HostPort.lean ====
section
/-! DEFINITION. The host's side: its moves (10_state.md R35, R36, R39, R42; 40_header.md R130) and its reads, which have
no side effect (R36). -/

namespace Sys2Proof.Machine

/-! ## Writes -/

/-- `n` is at most `IN_LEN_MAX` (00_scope.md R7). -/
def State.inLenAllowed (s : State) (n : Nat) : Bool :=
  match s.inLenMax with
  | none => true
  | some m => decide (n ≤ m)

/-- The host writes one byte of `IN`: only while the block is quiescent (20_memory.md R70, R74). -/
def hostWriteIn (offset : Nat) (b : Byte) (s : State) : Host.Outcome State Fault Refusal :=
  if s.phase.isQuiescent then
    if s.inLenAllowed (offset + 1) then .next (s.writeInput offset b)
    else .refused .inOffsetAboveMax
  else .refused .hostWroteDuringDecode

/-- The host writes `IN_LEN` (R35). -/
def hostWriteInLen (n : Nat) (s : State) : Host.Outcome State Fault Refusal :=
  if s.phase.isQuiescent then
    if s.inLenAllowed n then .next (s.setInLen n)
    else .refused .inLenAboveMax
  else .refused .hostWroteDuringDecode

/-- The host writes `CTRL`: bit 0 is START, the other bits do nothing (R35, U16). -/
def hostWriteCtrl (v : Nat) (s : State) : Host.Outcome State Fault Refusal :=
  if v % 2 = 1 then .next s.start else .next s

/-- The host writes a register of R36; a write to a read-only one has no effect. -/
def hostWriteReg (r : Reg) (v : Nat) (s : State) : Host.Outcome State Fault Refusal :=
  match r with
  | .ctrl => hostWriteCtrl v s
  | .inLen => hostWriteInLen v s
  | .phase => .next s
  | .errCode => .next s
  | .errInfo => .next s
  | .hdrValid => .next s
  | .width => .next s
  | .height => .next s
  | .channels => .next s
  | .colorspace => .next s
  | .expectedLen => .next s
  | .outLen => .next s
  | .pos => .next s
  | .maxOutBytes => .next s

/-- One move of the outside world. -/
def hostMove (m : HostMove) (s : State) : Host.Outcome State Fault Refusal :=
  match m with
  | .writeReg r v => hostWriteReg r v s
  | .writeIn offset b => hostWriteIn offset b s
  | .powerOn => .next s.powerOn
  | .wait => .next s

/-! ## Reads -/

/-- The number of a register (R36). -/
def Reg.number : Reg → Nat
  | .ctrl => 0
  | .inLen => 1
  | .phase => 2
  | .errCode => 3
  | .errInfo => 4
  | .hdrValid => 5
  | .width => 6
  | .height => 7
  | .channels => 8
  | .colorspace => 9
  | .expectedLen => 10
  | .outLen => 11
  | .pos => 12
  | .maxOutBytes => 13

/-- What a host read of a register returns (R36); `CTRL` reads 0. -/
def hostRead (r : Reg) (s : State) : Nat :=
  match r with
  | .ctrl => 0
  | .inLen => s.inLen
  | .phase => s.phase.code
  | .errCode => errCodeValue s.errCode
  | .errInfo => s.errInfo.toNat
  | .hdrValid => flagValue s.hdrValid
  | .width => s.width.toNat
  | .height => s.height.toNat
  | .channels => s.channels.toNat
  | .colorspace => s.colorspace.toNat
  | .expectedLen => s.expectedLen
  | .outLen => s.outLen
  | .pos => s.pos
  | .maxOutBytes => s.maxOutBytes

/-- What the host's read numbered `draw` of `OUT[k]` returns: the appended byte below `OUT_LEN` (20_memory.md R71), any
value at or beyond it (U10, log 12). -/
def hostReadOut (draw k : Nat) (s : State) : Byte :=
  if k < s.outLen then (s.outMem.read k).getD (Config.beyondOut draw k) else Config.beyondOut draw k

/-- The bytes of `OUT`, lowest offset first. -/
def State.outBytes (s : State) : List Byte :=
  (List.range s.outLen).map fun k => hostReadOut 0 k s

/-- The result of a run (70_reset_and_hazards.md R262). -/
inductive DecodeResult where
  | ok (width height : U32) (channels colorspace : Byte) (pixelBytes : List Byte)
  | err (code : DecodeError) (info : Byte)
  | running
deriving DecidableEq, Repr

/-- The result the host takes at quiescence: a header and its pixels at `DONE`, an error at `ERROR`, never both
(R71, R259, R262). -/
def State.result (s : State) : DecodeResult :=
  match s.phase, s.errCode with
  | .done, _ => .ok s.width s.height s.channels s.colorspace s.outBytes
  | .error, some e => .err e s.errInfo
  | _, _ => .running

end Sys2Proof.Machine
end

