-- ==== Sys2Proof/Machine/Step.lean ====
section
/-! DEFINITION. One step of the machine: the host moves first while it has a move; otherwise the block takes the step
its phase enables (10_state.md R39). -/

namespace Sys2Proof.Machine

/-- Run what was decoded: an instruction's meaning, or the error its absence is (R140, 40_header.md R120). -/
def runDecoded (d : Decoded) (s : State) : Host.Outcome State Fault Refusal :=
  match d with
  | .instr i => exec i s
  | .reject r => .next (s.raise (rejectError r) 0)

/-- The block's step: the header step in `HEADER`, an operator step in `BODY`, none in the quiescent phases (R39). -/
def blockStep (s : State) : Host.Outcome State Fault Refusal :=
  if s.phase.isQuiescent then .fault .quiescent else runDecoded s.fetch s

/-- The host leaves the step to the block; while the block is quiescent nothing happens. -/
def waitStep (s : State) : Host.Outcome State Fault Refusal :=
  if s.phase.isQuiescent then .next s else blockStep s

/-- One step of the whole machine. -/
def step (s : State) : Host.Outcome State Fault Refusal :=
  match s.inbox with
  | [] => blockStep s
  | .wait :: moves => waitStep (s.setInbox moves)
  | m :: moves => hostMove m (s.setInbox moves)

/-- The state with one instruction of the opcode table placed where the next step fetches it (log 7). -/
def State.withFetchWord (s : State) (nbits w : Nat) : State := s.placeWord nbits w

end Sys2Proof.Machine
end

