-- ==== Sys2Proof/Safety.lean ====
section
/-! DEFINITION. The terms the statements use: what an operator's effect is, written out from the spec's formulas and not
from the meanings; the invariants of 10_state.md R45, R21, R26 and R24; and when two outcomes agree. -/

namespace Sys2Proof.Machine

/-! ## The effect of an operator -/

/-- The formula of 41_operator_step.md R148, in RGBA mode or with the constant 255 of RGB mode. -/
def hashFormula (rgba : Bool) (p : Pixel) : Nat :=
  (p.r.toNat * 3 + p.g.toNat * 5 + p.b.toNat * 7 + (if rgba then p.a.toNat else 255) * 11) % 64

/-- The channel count of a mode (10_state.md R31). -/
def channelCount (rgba : Bool) : Nat := if rgba then 4 else 3

/-- Lane 0 is r, 1 is g, 2 is b, 3 is a: the output order of 20_memory.md R62. -/
def Pixel.lane (p : Pixel) : Nat → Byte
  | 0 => p.r
  | 1 => p.g
  | 2 => p.b
  | _ => p.a

/-- What a register that held `old` holds after `new` is written to it: r, g, b only, in RGB mode (10_state.md R22, R26). -/
def laneWrite (rgba : Bool) (new old : Pixel) : Pixel :=
  ⟨new.r, new.g, new.b, if rgba then new.a else old.a⟩

/-- A signed number kept as a byte: its residue modulo 256 (00_scope.md R8, 30_encoding.md R96). -/
def wrapByte (x : Int) : Byte := BitVec.ofInt 8 x

/-- A pixel with three numbers added to its colour lanes, each modulo 256, alpha unchanged (43_diff_luma.md R170). -/
def shiftedPixel (p : Pixel) (dr dg db : Int) : Pixel :=
  ⟨wrapByte (p.r.toNat + dr), wrapByte (p.g.toNat + dg), wrapByte (p.b.toNat + db), p.a⟩

/-- An operator that sets the current pixel to `p`, repeats it `n` times and has `k` operand bytes takes `s` to `t`
(R146 to R151). The last clause is the frame: no other field changes. -/
structure OperatorEffect (rgba : Bool) (s t : State) (p : Pixel) (n k : Nat) : Prop where
  px : t.px = p
  hist : ∀ i : Fin 64, t.hist[i] = if i.val = hashFormula rgba p then laneWrite rgba p s.hist[i] else s.hist[i]
  out : ∀ a, t.outMem.read a =
    if s.outLen ≤ a ∧ a < s.outLen + n * channelCount rgba
    then some (p.lane ((a - s.outLen) % channelCount rgba)) else s.outMem.read a
  outLen : t.outLen = s.outLen + n * channelCount rgba
  pos : t.pos = s.pos + 1 + k
  rest : t = { s with px := t.px, hist := t.hist, outMem := t.outMem, outLen := t.outLen, pos := t.pos }

/-- The state's `CHANNELS` holds the channel count of the mode. -/
def State.inMode (s : State) (rgba : Bool) : Prop := s.channels = BitVec.ofNat 8 (channelCount rgba)

/-- `raise E(info)`, written out (60_exceptions.md R218). -/
def raised (e : DecodeError) (info : Byte) (s : State) : State :=
  { s with errCode := some e, errInfo := info, phase := .error }

/-- The header registers, written out (40_header.md R120). -/
def withHeader (w h : U32) (c col : Byte) (s : State) : State :=
  { s with
    width := w
    height := h
    channels := c
    colorspace := col
    hdrValid := true
    expectedLen := w.toNat * h.toNat * c.toNat }

/-- The big-endian number of the four input bytes at an offset (20_memory.md R60). -/
def State.inU32 (s : State) (a : Nat) : U32 :=
  BitVec.ofNat 32 ((s.inByte a).toNat * 2 ^ 24 + (s.inByte (a + 1)).toNat * 2 ^ 16 + (s.inByte (a + 2)).toNat * 2 ^ 8 +
    (s.inByte (a + 3)).toNat)

/-- The four bytes at offset 0 are `q`, `o`, `i`, `f` (40_header.md R123). -/
def State.magicGood (s : State) : Prop :=
  s.inByte 0 = 0x71 ∧ s.inByte 1 = 0x6F ∧ s.inByte 2 = 0x69 ∧ s.inByte 3 = 0x66

/-- All eight bytes of the end marker stand at `POS` and exist (41_operator_step.md R141). -/
def State.markerAtPos (s : State) : Prop :=
  s.pos + 8 ≤ s.inLen ∧ (∀ j < 7, s.inByte (s.pos + j) = 0) ∧ s.inByte (s.pos + 7) = 1

/-! ## Invariants -/

/-- What holds between any two steps (10_state.md R44, R45, with R31 to R34). The clause of R45 that bounds `POS` by
`IN_LEN` is kept for `BODY`: at `DONE` and `ERROR` the host may write another `IN_LEN` (log 15). -/
structure State.Inv (s : State) : Prop where
  /-- `IN` is in canonical form. -/
  inCanonical : s.inMem.wf = true
  /-- `OUT` is in canonical form. -/
  outCanonical : s.outMem.wf = true
  /-- `OUT` holds exactly the offsets below `OUT_LEN` (R45, 20_memory.md R69). -/
  outListed : s.outMem.map Prod.fst = List.range s.outLen
  /-- `ERR_CODE` is not 0 exactly when `PHASE` is `ERROR` (R45). -/
  errorPhase : s.errCode ≠ none ↔ s.phase = .error
  /-- `ERR_INFO` is 0 unless the error is `InvalidChannels` (R34). -/
  errorInfo : s.errCode ≠ some .invalidChannels → s.errInfo = 0
  /-- With a valid header, the mode is legal and `EXPECTED_LEN` is the exact product (R31, R32). -/
  header : s.hdrValid = true →
    (s.channels = 3 ∨ s.channels = 4) ∧ s.expectedLen = s.width.toNat * s.height.toNat * s.channels.toNat
  /-- Without one, the header registers are 0 and nothing is decoded yet (R41). -/
  noHeader : s.hdrValid = false →
    s.width = 0 ∧ s.height = 0 ∧ s.channels = 0 ∧ s.colorspace = 0 ∧ s.expectedLen = 0 ∧ s.outLen = 0 ∧ s.pos = 0
  /-- `IDLE` and `HEADER` come before the header is read (R44). -/
  beforeHeader : s.phase = .idle ∨ s.phase = .header → s.hdrValid = false
  /-- In `BODY` and `DONE` the header passed every test (40_header.md R128). -/
  afterHeader : s.phase = .body ∨ s.phase = .done → s.hdrValid = true ∧ s.expectedLen ≤ s.maxOutBytes ∧ 14 ≤ s.pos
  /-- After a body error the cursor is in the body (R45). -/
  bodyError : s.phase = .error → s.hdrValid = true → s.errCode ≠ some .dimensionsTooLarge → 14 ≤ s.pos
  /-- In `BODY` the cursor is within the input (R27). -/
  posInInput : s.phase = .body → s.pos ≤ s.inLen
  /-- `DONE` means the right output length (R45). -/
  doneLength : s.phase = .done → s.outLen = s.expectedLen
  /-- The output is whole pixels, at most 62 for each byte of the body consumed (R33). -/
  outBound : s.hdrValid = true →
    s.outLen % s.channels.toNat = 0 ∧ s.outLen ≤ 62 * s.channels.toNat * (s.pos - 14)

/-- What holds of the pixel registers (10_state.md R21, R24, R26, R41). -/
structure State.PixelInv (s : State) : Prop where
  /-- In `HEADER` the pixel registers hold their START values (R41, 40_header.md R128). -/
  fresh : s.phase = .header → s.px = ⟨0, 0, 0, 255⟩ ∧ ∀ i : Fin 64, s.hist[i] = ⟨0, 0, 0, 0⟩
  /-- In RGB mode the a lanes keep their START values (R21, R26). -/
  rgbLanes : s.channels = 3 → s.px.a = 255 ∧ ∀ i : Fin 64, s.hist[i].a = 0
  /-- An entry that is not all zero holds a pixel at its own hash (R24). -/
  keyed : ∀ i : Fin 64, s.hist[i] = ⟨0, 0, 0, 0⟩ ∨ hashFormula (decide (s.channels = 4)) s.hist[i] = i.val

/-! ## The phase graph (10_state.md R44) -/

/-- The phase changes of the block's own steps, each with what it takes. -/
def BlockEdge (s t : State) : Prop :=
  match s.phase with
  | .header =>
    (t.phase = .body ∧ t.hdrValid = true) ∨
      (t.phase = .error ∧ (t.errCode = some .tooShort ∨ t.errCode = some .badMagic ∨ t.errCode = some .invalidChannels ∨
        t.errCode = some .dimensionsTooLarge))
  | .body =>
    (t.phase = .body ∧ s.pos < t.pos) ∨
      (t.phase = .done ∧ s.markerAtPos ∧ s.outLen = s.expectedLen) ∨
      (t.phase = .error ∧ (t.errCode = some .sizeMismatch ∨ t.errCode = some .unterminatedStream ∨
        t.errCode = some .truncatedOperatorStream))
  | _ => False

/-! ## Agreement of outcomes -/

/-- Two outcomes are of one kind, with related next states or the same reason. -/
def OutcomeAgree (R : State → State → Prop) (x y : Host.Outcome State Fault Refusal) : Prop :=
  match x, y with
  | .next t, .next u => R t u
  | .fault a, .fault b => a = b
  | .refused a, .refused b => a = b
  | _, _ => False

/-- Equal but for the numbering of free values and the input-length parameter. -/
def SameDecode (t u : State) : Prop := t = { u with epoch := t.epoch, inLenMax := t.inLenMax }

/-- Equal but for the contents of `IN`. -/
def SameButInput (t u : State) : Prop := t = { u with inMem := t.inMem }

/-- Equal but for `COLORSPACE`. -/
def SameButColorspace (t u : State) : Prop := t = { u with colorspace := t.colorspace }

/-- Equal but for the a lanes of `PX` and `HIST`. -/
def SameButAlpha (t u : State) : Prop :=
  t = { u with px := { u.px with a := t.px.a }, hist := t.hist } ∧
    ∀ i : Fin 64, t.hist[i] = { u.hist[i] with a := t.hist[i].a }

/-- Every byte of the input buffer was written by the host (70_reset_and_hazards.md R258). -/
def State.inputWritten (s : State) : Prop := ∀ a < s.inLen, s.inMem.read a ≠ none

end Sys2Proof.Machine
end

