-- ==== Sys2Proof/Certificates/Slice0/Obligations.lean ====
section
/-! DEFINITION. The statements for the provers. Each docstring names the rule of spec/ it formalises; "model's choice"
names the log entry where a clause rests on one. -/

open Sys2Proof Sys2Proof.Machine

/-! ## Fetching and decoding -/

/-- R120, R140, R39: with no host move pending, or when the host leaves the step to the block, a step is the meaning of
the instruction the bytes decode to. (Model's choice: the host's list, log 4.) -/
def Obligations.StepRunsDecodedInstruction : Prop :=
  ∀ (s : State) (i : Instr) (moves : List HostMove), s.inbox = [] →
    (s.phase = .body → decodeOperator s.streamWindow = .instr i →
      step s = exec i s ∧ step { s with inbox := .wait :: moves } = exec i { s with inbox := moves }) ∧
    (s.phase = .header → decodeHeader s.headerWindow = .instr i →
      step s = exec i s ∧ step { s with inbox := .wait :: moves } = exec i { s with inbox := moves })

/-- R65, R141, R152: the bytes a step decodes are the input's bytes at the cursor, at most eight of them and none at or
beyond `IN_LEN`; the header step's are those at offset 0, at most fourteen. -/
def Obligations.FetchWindowsHoldInputBytes : Prop :=
  ∀ (s : State),
    s.streamWindow.length = min 8 (s.inLen - s.pos) ∧ s.headerWindow.length = min 14 s.inLen ∧
    (∀ j b, j < 8 → s.pos + j < s.inLen → s.inMem.read (s.pos + j) = some b → s.streamWindow[j]? = some b) ∧
    (∀ j b, j < 14 → j < s.inLen → s.inMem.read j = some b → s.headerWindow[j]? = some b)

/-- R91 to R102: words written out bit by bit from the formats decode to what they stand for. -/
def Obligations.DecoderReadsWrittenWords : Prop :=
  decodeOperator [0b00000101#8] = .instr (.index 5) ∧
  decodeOperator [0b01110011#8] = .instr (.diff 3 0 3) ∧
  decodeOperator [0b10100101#8, 0b00111100#8] = .instr (.luma 37 3 12) ∧
  decodeOperator [0b11000011#8] = .instr (.run 3) ∧
  decodeOperator [0b11111110#8, 1#8, 2#8, 3#8] = .instr (.rgb 1 2 3) ∧
  decodeOperator [0b11111111#8, 10#8, 20#8, 30#8, 40#8] = .instr (.rgba 10 20 30 40) ∧
  decodeOperator [0#8, 0#8, 0#8, 0#8, 0#8, 0#8, 0#8, 1#8] = .instr .endMarker ∧
  decodeHeader [0x71#8, 0x6F#8, 0x69#8, 0x66#8, 1#8, 2#8, 3#8, 4#8, 0#8, 0#8, 0#8, 5#8, 3#8, 123#8] =
    .instr (.hdr 0x01020304 5 3 123)

/-- R103: the opcode map, in its normative order. END when eight bytes remain and equal the marker; no encoding when no
byte remains; otherwise the first byte selects. -/
def Obligations.DispatchFollowsOpcodeMap : Prop :=
  (∀ rest : List Byte, decodeOperator ([0, 0, 0, 0, 0, 0, 0, 1] ++ rest) = .instr .endMarker) ∧
  decodeOperator [] = .reject .exhausted ∧
  ∀ (op : Byte) (rest : List Byte), ¬(∃ more, op :: rest = [0, 0, 0, 0, 0, 0, 0, 1] ++ more) →
    (op.toNat ≤ 0x3F → decodeOperator (op :: rest) = .instr (.index (BitVec.ofNat 6 op.toNat))) ∧
    (0x40 ≤ op.toNat → op.toNat ≤ 0x7F → decodeOperator (op :: rest) =
      .instr (.diff (BitVec.ofNat 2 (op.toNat / 16)) (BitVec.ofNat 2 (op.toNat / 4)) (BitVec.ofNat 2 op.toNat))) ∧
    (0x80 ≤ op.toNat → op.toNat ≤ 0xBF → ∀ next more, rest = next :: more → decodeOperator (op :: rest) =
      .instr (.luma (BitVec.ofNat 6 (op.toNat - 0x80)) (BitVec.ofNat 4 (next.toNat / 16)) (BitVec.ofNat 4 next.toNat))) ∧
    (0xC0 ≤ op.toNat → op.toNat ≤ 0xFD → decodeOperator (op :: rest) =
      .instr (.run (BitVec.ofNat 6 (op.toNat - 0xC0)))) ∧
    (op = 0xFE → ∀ r g b more, rest = r :: g :: b :: more → decodeOperator (op :: rest) = .instr (.rgb r g b)) ∧
    (op = 0xFF → ∀ r g b a more, rest = r :: g :: b :: a :: more →
      decodeOperator (op :: rest) = .instr (.rgba r g b a))

/-- Decode and encode agree on every operator and END, whatever follows in the stream. An operator other than END whose
bytes, with what follows, make the end marker is END instead (R106). -/
def Obligations.OperatorDecodeEncodeAgree : Prop :=
  ∀ (i : Instr) (rest : List Byte), i.wf = true → (∀ w h c col, i ≠ .hdr w h c col) →
    (i ≠ .endMarker → (encode i ++ rest).take 8 ≠ endMarkerBytes) → decodeOperator (encode i ++ rest) = .instr i

/-- Decode and encode agree on every header record (R91). -/
def Obligations.HeaderDecodeEncodeAgree : Prop :=
  ∀ (w h : U32) (c col : Byte) (rest : List Byte), decodeHeader (encode (.hdr w h c col) ++ rest) = .instr (.hdr w h c col)

/-- The other direction: whatever is decoded is well formed, and its encoding stands at the start of the bytes, so no
bit of an encoding is dropped. -/
def Obligations.DecodedInstructionReencodes : Prop :=
  ∀ (bs : List Byte) (i : Instr), (decodeOperator bs = .instr i ∨ decodeHeader bs = .instr i) →
    i.wf = true ∧ ∃ rest, bs = encode i ++ rest

/-! ## The operators: result, completion and frame -/

/-- R160: INDEX is the one byte i; it loads entry i, read before the tail's store, and completes in both modes. Bytes that
make the end marker are END instead (R106). -/
def Obligations.IndexLoadsEntry : Prop :=
  ∀ i : BitVec 6,
    (∀ rest, (BitVec.ofNat 8 i.toNat :: rest).take 8 ≠ [0, 0, 0, 0, 0, 0, 0, 1] →
      decodeOperator (BitVec.ofNat 8 i.toNat :: rest) = .instr (.index i)) ∧
    ∀ (rgba : Bool) (s : State), s.inMode rgba →
      ∃ t, exec (.index i) s = .next t ∧ OperatorEffect rgba s t (laneWrite rgba s.hist[entryNumber i] s.px) 1 0

/-- R172: DIFF is the one byte `0b01rrggbb`; it adds its three deltas (field − 2) modulo 256 and completes in both
modes. -/
def Obligations.DiffAddsBiasedFields : Prop :=
  ∀ rf gf bf : BitVec 2,
    (∀ rest, decodeOperator (BitVec.ofNat 8 (0x40 + rf.toNat * 16 + gf.toNat * 4 + bf.toNat) :: rest) =
      .instr (.diff rf gf bf)) ∧
    ∀ (rgba : Bool) (s : State), s.inMode rgba →
      ∃ t, exec (.diff rf gf bf) s = .next t ∧
        OperatorEffect rgba s t (shiftedPixel s.px (rf.toNat - 2) (gf.toNat - 2) (bf.toNat - 2)) 1 0

/-- R174: LUMA is two bytes, and without the second no instruction; it adds dg = g_field − 32, and r_field − 8 + dg,
b_field − 8 + dg, modulo 256; it completes in both modes. -/
def Obligations.LumaAddsRelativeDeltas : Prop :=
  ∀ (gf : BitVec 6) (rf bf : BitVec 4),
    (∀ rest, decodeOperator (BitVec.ofNat 8 (0x80 + gf.toNat) :: BitVec.ofNat 8 (rf.toNat * 16 + bf.toNat) :: rest) =
      .instr (.luma gf rf bf)) ∧
    decodeOperator [BitVec.ofNat 8 (0x80 + gf.toNat)] = .reject .truncated ∧
    ∀ (rgba : Bool) (s : State), s.inMode rgba →
      ∃ t, exec (.luma gf rf bf) s = .next t ∧
        OperatorEffect rgba s t
          (shiftedPixel s.px (rf.toNat - 8 + (gf.toNat - 32)) (gf.toNat - 32) (bf.toNat - 8 + (gf.toNat - 32))) 1 1

/-- R181: RGB is `FE r g b`, and with fewer bytes no instruction; it sets r, g, b, keeps a in either mode, and
completes. -/
def Obligations.RgbSetsColourLanes : Prop :=
  (∀ ops : List Byte, ops.length < 3 → decodeOperator (0xFE :: ops) = .reject .truncated) ∧
  ∀ r g b : Byte,
    (∀ rest, decodeOperator (0xFE :: r :: g :: b :: rest) = .instr (.rgb r g b)) ∧
    ∀ (rgba : Bool) (s : State), s.inMode rgba →
      ∃ t, exec (.rgb r g b) s = .next t ∧ OperatorEffect rgba s t ⟨r, g, b, s.px.a⟩ 1 3

/-- R183: RGBA is `FF r g b a`, five bytes in both modes, and with fewer bytes no instruction; it sets all four lanes in
RGBA mode and drops the a operand in RGB mode; it completes. -/
def Obligations.RgbaSetsAllLanes : Prop :=
  (∀ ops : List Byte, ops.length < 4 → decodeOperator (0xFF :: ops) = .reject .truncated) ∧
  ∀ r g b a : Byte,
    (∀ rest, decodeOperator (0xFF :: r :: g :: b :: a :: rest) = .instr (.rgba r g b a)) ∧
    ∀ s : State,
      (s.inMode true → ∃ t, exec (.rgba r g b a) s = .next t ∧ OperatorEffect true s t ⟨r, g, b, a⟩ 1 4) ∧
      (s.inMode false → ∃ t, exec (.rgba r g b a) s = .next t ∧ OperatorEffect false s t ⟨r, g, b, s.px.a⟩ 1 4)

/-- R191: RUN is the one byte `0xC0 + l`; it leaves the pixel, stores it once and appends l + 1 copies; it completes for
every legal payload. -/
def Obligations.RunRepeatsPixel : Prop :=
  ∀ l : BitVec 6, l.toNat ≤ 61 →
    (∀ rest, decodeOperator (BitVec.ofNat 8 (0xC0 + l.toNat) :: rest) = .instr (.run l)) ∧
    ∀ (rgba : Bool) (s : State), s.inMode rgba →
      ∃ t, exec (.run l) s = .next t ∧ OperatorEffect rgba s t s.px (l.toNat + 1) 0

/-- R22, R28, R66, R226: the frame of the six operators. Nothing but `PX`, the entry of `HIST` at the new pixel's hash,
`POS`, `OUT_LEN` and the appended bytes of `OUT` changes; the appended bytes start at `OUT_LEN`. (Model's choice: a
channel byte other than 3 and 4, which no decode reaches, is read as RGB mode, log 10.) -/
def Obligations.OperatorFrame : Prop :=
  ∀ (i : Instr) (s t : State), (∀ w h c col, i ≠ .hdr w h c col) → i ≠ .endMarker → i.wf = true →
    exec i s = .next t →
    t = { s with px := t.px, hist := t.hist, outMem := t.outMem, outLen := t.outLen, pos := t.pos } ∧
    (s.channels ≠ 4 → t.px.a = s.px.a) ∧
    (∀ j : Fin 64, j.val ≠ hashFormula (decide (s.channels = 4)) t.px → t.hist[j] = s.hist[j]) ∧
    (∀ a, ¬(s.outLen ≤ a ∧ a < t.outLen) → t.outMem.read a = s.outMem.read a) ∧
    t.outLen = s.outLen + (match i with | .run l => l.toNat + 1 | _ => 1) * (if s.channels = 4 then 4 else 3) ∧
    t.pos = s.pos + i.length

/-- R162: an INDEX of an entry whose pixel sits at its own hash leaves the index unchanged. -/
def Obligations.IndexOfStoredEntryKeepsIndex : Prop :=
  ∀ (rgba : Bool) (s : State) (i : BitVec 6), s.inMode rgba → hashFormula rgba s.hist[entryNumber i] = i.toNat →
    ∃ t, exec (.index i) s = .next t ∧ t.hist = s.hist

/-- R148: the hash is the formula, whose sum is at most 6630, reduced modulo 64; the same when the sum is first reduced
modulo 256; in RGB mode the constant is 2805, which counts as 53; the START pixel hashes to 53 in both modes. -/
def Obligations.HashIsFormulaModSixtyFour : Prop :=
  (∀ p : Pixel,
    p.r.toNat * 3 + p.g.toNat * 5 + p.b.toNat * 7 + p.a.toNat * 11 ≤ 6630 ∧
    (pixelHash .rgba p).val = (p.r.toNat * 3 + p.g.toNat * 5 + p.b.toNat * 7 + p.a.toNat * 11) % 64 ∧
    (pixelHash .rgba p).val = (p.r.toNat * 3 + p.g.toNat * 5 + p.b.toNat * 7 + p.a.toNat * 11) % 256 % 64 ∧
    (pixelHash .rgb p).val = (p.r.toNat * 3 + p.g.toNat * 5 + p.b.toNat * 7 + 2805) % 64 ∧
    (pixelHash .rgb p).val = (p.r.toNat * 3 + p.g.toNat * 5 + p.b.toNat * 7 + 2805) % 256 % 64 ∧
    (pixelHash .rgb p).val = (p.r.toNat * 3 + p.g.toNat * 5 + p.b.toNat * 7 + 53) % 64) ∧
  (pixelHash .rgba ⟨0, 0, 0, 255⟩).val = 53 ∧ (pixelHash .rgb ⟨0, 0, 0, 255⟩).val = 53

/-! ## END and HDR -/

/-- R200: END compares `OUT_LEN` with `EXPECTED_LEN`; equal, it sets `PHASE` to `DONE` and changes nothing else;
different, it raises `SizeMismatch`. -/
def Obligations.EndChecksOutputLength : Prop :=
  ∀ s : State,
    (s.outLen = s.expectedLen → exec .endMarker s = .next { s with phase := .done }) ∧
    (s.outLen ≠ s.expectedLen → exec .endMarker s = .next (raised .sizeMismatch 0 s))

/-- R141, R200, R201: an operator step that finds the marker at `POS` ends the decode, and `POS` stays. -/
def Obligations.MarkerAtBoundaryEndsDecode : Prop :=
  ∀ s : State, s.phase = .body → s.inbox = [] → s.markerAtPos →
    (s.outLen = s.expectedLen → step s = .next { s with phase := .done }) ∧
    (s.outLen ≠ s.expectedLen → step s = .next (raised .sizeMismatch 0 s))

/-- R141: with fewer than eight bytes left, or with another byte among the next eight, the peek does not match: the step
neither completes the decode nor checks its length. -/
def Obligations.PeekMatchesWholeMarkerOnly : Prop :=
  ∀ s t : State, s.phase = .body → s.inbox = [] → ¬s.markerAtPos → step s = .next t →
    t.phase ≠ .done ∧ (t.phase = .error → t.errCode ≠ some .sizeMismatch)

/-- R120, R124, R127, R128: HDR's own effect, once its bytes are decoded. It completes for a legal channel byte and a
product not above the limit. -/
def Obligations.HdrPublishesHeader : Prop :=
  ∀ (s : State) (w h : U32) (c col : Byte),
    (c ≠ 3 → c ≠ 4 → exec (.hdr w h c col) s = .next (raised .invalidChannels c s)) ∧
    ((c = 3 ∨ c = 4) → s.maxOutBytes < w.toNat * h.toNat * c.toNat →
      exec (.hdr w h c col) s = .next (raised .dimensionsTooLarge 0 (withHeader w h c col s))) ∧
    ((c = 3 ∨ c = 4) → w.toNat * h.toNat * c.toNat ≤ s.maxOutBytes →
      exec (.hdr w h c col) s = .next { withHeader w h c col s with pos := 14, phase := .body })

/-- R120, R121, R221: the whole header step from the bytes of `IN`, its tests in their order, the first that fails
reported. -/
def Obligations.HeaderStepTestsInOrder : Prop :=
  ∀ s : State, s.phase = .header → s.inbox = [] →
    (s.inLen < 14 → step s = .next (raised .tooShort 0 s)) ∧
    (14 ≤ s.inLen → ¬s.magicGood → step s = .next (raised .badMagic 0 s)) ∧
    (14 ≤ s.inLen → s.magicGood → s.inByte 12 ≠ 3 → s.inByte 12 ≠ 4 →
      step s = .next (raised .invalidChannels (s.inByte 12) s)) ∧
    (14 ≤ s.inLen → s.magicGood → (s.inByte 12 = 3 ∨ s.inByte 12 = 4) →
      s.maxOutBytes < (s.inU32 4).toNat * (s.inU32 8).toNat * (s.inByte 12).toNat →
      step s = .next
        (raised .dimensionsTooLarge 0 (withHeader (s.inU32 4) (s.inU32 8) (s.inByte 12) (s.inByte 13) s))) ∧
    (14 ≤ s.inLen → s.magicGood → (s.inByte 12 = 3 ∨ s.inByte 12 = 4) →
      (s.inU32 4).toNat * (s.inU32 8).toNat * (s.inByte 12).toNat ≤ s.maxOutBytes →
      step s = .next { withHeader (s.inU32 4) (s.inU32 8) (s.inByte 12) (s.inByte 13) s with pos := 14, phase := .body })

/-- R60: the header numbers are big-endian and lose nothing: the 32-bit number is the exact sum. -/
def Obligations.HeaderNumbersAreBigEndian : Prop :=
  ∀ b0 b1 b2 b3 : Byte,
    (be32 b0 b1 b2 b3).toNat = b0.toNat * 2 ^ 24 + b1.toNat * 2 ^ 16 + b2.toNat * 2 ^ 8 + b3.toNat

/-! ## Errors -/

/-- R218: `raise` writes `ERR_CODE`, `ERR_INFO` (the channel byte for `InvalidChannels`, else 0) and `PHASE`, nothing
else; afterwards the block has no step. The codes are those of R210. -/
def Obligations.RaiseWritesErrorRegisters : Prop :=
  (∀ (e : DecodeError) (info : Byte) (s : State),
    s.raise e info = { s with errCode := some e, errInfo := if e = .invalidChannels then info else 0, phase := .error }) ∧
  (∀ (e : DecodeError) (info : Byte) (s : State), hostRead .phase (s.raise e info) = 4 ∧
    hostRead .errCode (s.raise e info) =
      (match e with
        | .tooShort => 1 | .badMagic => 2 | .invalidChannels => 3 | .dimensionsTooLarge => 4
        | .truncatedOperatorStream => 5 | .unterminatedStream => 6 | .sizeMismatch => 7)) ∧
  ∀ (e : DecodeError) (info : Byte) (s t : State), s.inbox = [] → step (s.raise e info) ≠ .next t

/-- R142, R216: no byte left at an operator boundary raises `UnterminatedStream`, and only that does. -/
def Obligations.ExhaustedStreamIsUnterminated : Prop :=
  ∀ s : State, s.phase = .body → s.inbox = [] → s.pos ≤ s.inLen →
    (s.pos = s.inLen → step s = .next (raised .unterminatedStream 0 s)) ∧
    ∀ t, step s = .next t → t.phase = .error → t.errCode = some .unterminatedStream → s.pos = s.inLen

/-- R143, R215: LUMA, RGB and RGBA with fewer than 1, 3 or 4 bytes after the tag byte raise
`TruncatedOperatorStream`, in both modes; `POS` stays at the tag byte. -/
def Obligations.MissingOperandIsTruncated : Prop :=
  ∀ s : State, s.phase = .body → s.inbox = [] → s.pos < s.inLen →
    (0x80 ≤ (s.inByte s.pos).toNat → (s.inByte s.pos).toNat ≤ 0xBF → s.inLen - s.pos - 1 < 1 →
      step s = .next (raised .truncatedOperatorStream 0 s)) ∧
    (s.inByte s.pos = 0xFE → s.inLen - s.pos - 1 < 3 → step s = .next (raised .truncatedOperatorStream 0 s)) ∧
    (s.inByte s.pos = 0xFF → s.inLen - s.pos - 1 < 4 → step s = .next (raised .truncatedOperatorStream 0 s))

/-- R215: only a LUMA, RGB or RGBA tag byte can raise `TruncatedOperatorStream`: INDEX, DIFF, RUN and END never do. -/
def Obligations.OnlyMultiByteOperatorsTruncate : Prop :=
  ∀ s t : State, s.phase = .body → s.inbox = [] → step s = .next t → t.phase = .error →
    t.errCode = some .truncatedOperatorStream →
    s.pos < s.inLen ∧ ((0x80 ≤ (s.inByte s.pos).toNat ∧ (s.inByte s.pos).toNat ≤ 0xBF) ∨ 0xFE ≤ (s.inByte s.pos).toNat)

/-- R219: errors are precise. A block step that ends in `ERROR` leaves `PX`, `HIST`, `OUT`, `OUT_LEN`, `POS` and the input
as they were; the header registers too, except that `DimensionsTooLarge` comes after they are written. -/
def Obligations.ErrorsArePrecise : Prop :=
  ∀ s t : State, s.inbox = [] → step s = .next t → t.phase = .error →
    t.px = s.px ∧ t.hist = s.hist ∧ t.outMem = s.outMem ∧ t.outLen = s.outLen ∧ t.pos = s.pos ∧ t.inMem = s.inMem ∧
    t.inLen = s.inLen ∧
    (t.errCode ≠ some .dimensionsTooLarge →
      t.hdrValid = s.hdrValid ∧ t.width = s.width ∧ t.height = s.height ∧ t.channels = s.channels ∧
        t.colorspace = s.colorspace ∧ t.expectedLen = s.expectedLen) ∧
    (t.errCode = some .dimensionsTooLarge →
      t.hdrValid = true ∧ t.expectedLen = t.width.toNat * t.height.toNat * t.channels.toNat ∧
        s.maxOutBytes < t.expectedLen)

/-! ## Reset, START and the host -/

/-- R42 and the reset column of R36: what power-on reset leaves in every register and in `OUT`. -/
def Obligations.PowerOnResetValues : Prop :=
  hostRead .ctrl State.reset = 0 ∧ hostRead .inLen State.reset = 0 ∧ hostRead .phase State.reset = 0 ∧
  hostRead .errCode State.reset = 0 ∧ hostRead .errInfo State.reset = 0 ∧ hostRead .hdrValid State.reset = 0 ∧
  hostRead .width State.reset = 0 ∧ hostRead .height State.reset = 0 ∧ hostRead .channels State.reset = 0 ∧
  hostRead .colorspace State.reset = 0 ∧ hostRead .expectedLen State.reset = 0 ∧ hostRead .outLen State.reset = 0 ∧
  hostRead .pos State.reset = 0 ∧ hostRead .maxOutBytes State.reset = Config.maxOutBytes ∧ State.reset.outMem = []

/-- R42, R44: power-on reset from any state leads to `IDLE`, with every register of R36 at its reset value, the
parameter kept, and `OUT` empty. -/
def Obligations.PowerOnFromAnyState : Prop :=
  ∀ (s : State) (moves : List HostMove), s.inbox = .powerOn :: moves →
    ∃ t, step s = .next t ∧ t.phase = .idle ∧ t.outMem = [] ∧
      hostRead .maxOutBytes t = s.maxOutBytes ∧ ∀ r : Reg, r ≠ .maxOutBytes → hostRead r t = 0

/-- R41, R130: a host write of 1 to `CTRL.START` in `IDLE`, `DONE` or `ERROR` writes every piece of decode state; `IN`
and `IN_LEN` are unchanged; in `HEADER` and `BODY` it has no effect. (The field `epoch` is the model's own, log 2;
nothing is said of its value.) -/
def Obligations.StartWritesDecodeState : Prop :=
  ∀ (s : State) (v : Nat) (moves : List HostMove), s.inbox = .writeReg .ctrl v :: moves → v % 2 = 1 →
    (s.phase = .header ∨ s.phase = .body → step s = .next { s with inbox := moves }) ∧
    (s.phase = .idle ∨ s.phase = .done ∨ s.phase = .error →
      ∃ e, step s = .next
        { s with
          px := ⟨0, 0, 0, 255⟩
          hist := Vector.replicate 64 ⟨0, 0, 0, 0⟩
          pos := 0
          phase := .header
          hdrValid := false
          width := 0
          height := 0
          channels := 0
          colorspace := 0
          expectedLen := 0
          errCode := none
          errInfo := 0
          outMem := []
          outLen := 0
          epoch := e
          inbox := moves })

/-- R35, R36, R260: START during a decode, a 0 written to `CTRL.START` and a write to a read-only register change
nothing. -/
def Obligations.IgnoredRegisterWrites : Prop :=
  ∀ (s : State) (r : Reg) (v : Nat) (moves : List HostMove), s.inbox = .writeReg r v :: moves →
    ((r = .ctrl ∧ (s.phase = .header ∨ s.phase = .body)) ∨ (r = .ctrl ∧ v % 2 = 0) ∨ (r ≠ .ctrl ∧ r ≠ .inLen)) →
    step s = .next { s with inbox := moves }

/-- R35, R37, R74: while the block is quiescent the host writes `IN_LEN`, or one byte of `IN` and no other. (Model's
choice: the parameter bounds both, log 6.) -/
def Obligations.QuiescentHostWritesInput : Prop :=
  ∀ (s : State) (moves : List HostMove), s.phase.isQuiescent = true →
    (∀ n, s.inLenAllowed n = true → s.inbox = .writeReg .inLen n :: moves →
      step s = .next { s with inLen := n, inbox := moves }) ∧
    (∀ a b, s.inLenAllowed (a + 1) = true → s.inbox = .writeIn a b :: moves →
      ∃ t, step s = .next t ∧ t = { s with inMem := t.inMem, inbox := moves } ∧ t.inMem.read a = some b ∧
        ∀ k, k ≠ a → t.inMem.read k = s.inMem.read k)

/-- U6 of 93_implementation_defined.md, R70, R256: the model has no move for a host write of `IN` or `IN_LEN` during a
decode. -/
def Obligations.DecodeRefusesInputWrites : Prop :=
  ∀ (s : State) (m : HostMove) (moves : List HostMove), (s.phase = .header ∨ s.phase = .body) → s.inbox = m :: moves →
    ((∃ a b, m = .writeIn a b) ∨ ∃ n, m = .writeReg .inLen n) → step s = .refused .hostWroteDuringDecode

/-- R39: in `IDLE`, `DONE` and `ERROR` no step is enabled. (Model's choice: the outcome is a fault of that name, log 5.) -/
def Obligations.QuiescentBlockHasNoStep : Prop :=
  ∀ s : State, (s.phase = .idle ∨ s.phase = .done ∨ s.phase = .error) → s.inbox = [] → step s = .fault .quiescent

/-- R36: registers have the numbers 0 to 13, one each; `PHASE` reads 0 to 4. -/
def Obligations.RegisterNumbersDistinct : Prop :=
  (∀ r q : Reg, r.number = q.number → r = q) ∧ (∀ r : Reg, r.number ≤ 13) ∧ ∀ s : State, hostRead .phase s ≤ 4

/-! ## Whole-machine rules -/

/-- R44: the phase graph. Every step's phase change is one of its rows. -/
def Obligations.PhaseGraph : Prop :=
  ∀ s t : State, step s = .next t →
    (s.inbox = [] → BlockEdge s t) ∧
    (∀ moves, s.inbox = .wait :: moves → (s.phase.isQuiescent = true → t.phase = s.phase) ∧
      (s.phase.isQuiescent = false → BlockEdge s t)) ∧
    (∀ moves, s.inbox = .powerOn :: moves → t.phase = .idle) ∧
    (∀ v moves, s.inbox = .writeReg .ctrl v :: moves →
      t.phase = if s.phase.isQuiescent = true ∧ v % 2 = 1 then .header else s.phase) ∧
    (∀ r v moves, r ≠ .ctrl → s.inbox = .writeReg r v :: moves → t.phase = s.phase) ∧
    (∀ a b moves, s.inbox = .writeIn a b :: moves → t.phase = s.phase)

/-- R45 with R31 to R34: every step keeps the invariant. -/
def Obligations.StepKeepsInv : Prop := ∀ s t : State, s.Inv → step s = .next t → t.Inv

/-- The state after power-on reset meets it. -/
def Obligations.ResetMeetsInv : Prop := State.reset.Inv

/-- R21, R24, R26, R41: every step keeps the invariant of the pixel registers. (Model's choice: `PX` and `HIST` are zero
after the power-on move, log 1; R42 leaves them unspecified.) -/
def Obligations.StepKeepsPixelInv : Prop := ∀ s t : State, s.PixelInv → step s = .next t → t.PixelInv

/-- The state after power-on reset meets it. (Model's choice: `PX` and `HIST` are zero there, log 1.) -/
def Obligations.ResetMeetsPixelInv : Prop := State.reset.PixelInv

/-- Equal memories are equal data: two byte spaces in canonical form that read alike are the same list. -/
def Obligations.CanonicalMemoriesAreEqualData : Prop :=
  ∀ m m' : Memory, m.wf = true → m'.wf = true → (∀ a, m.read a = m'.read a) → m = m'

/-- R66, R74, R40: the block never writes `IN`, `IN_LEN` or a parameter, and never rewrites a byte of `OUT`. -/
def Obligations.BlockNeverRewritesMemory : Prop :=
  ∀ s t : State, s.inbox = [] → step s = .next t →
    t.inMem = s.inMem ∧ t.inLen = s.inLen ∧ t.maxOutBytes = s.maxOutBytes ∧ t.inLenMax = s.inLenMax ∧
      s.outLen ≤ t.outLen ∧ ∀ a, (a < s.outLen ∨ t.outLen ≤ a) → t.outMem.read a = s.outMem.read a

/-- R263: in `HEADER` and `BODY` the block's step is total: every input leads to a next state. -/
def Obligations.BusyBlockAlwaysSteps : Prop :=
  ∀ s : State, (s.phase = .header ∨ s.phase = .body) → s.inbox = [] → ∃ t, step s = .next t

/-- R263: every run ends: one header step, at most `IN_LEN` − 14 operators and one step that ends the run. -/
def Obligations.EveryDecodeEnds : Prop :=
  ∀ s : State, s.inbox = [] →
    (s.phase = .body → ∃ k t, k ≤ s.inLen - s.pos + 1 ∧ Host.Core.run Sys2Proof.core k s = .next t ∧
      (t.phase = .done ∨ t.phase = .error)) ∧
    (s.phase = .header → ∃ k t, k ≤ 1 + (s.inLen - 14) + 1 ∧ Host.Core.run Sys2Proof.core k s = .next t ∧
      (t.phase = .done ∨ t.phase = .error))

/-- R233, R43: after START a decode is a function of `IN`, `IN_LEN` and `MAX_OUT_BYTES` alone: from any two quiescent
states that agree on them, with every input byte written by the host, the runs agree step for step. -/
def Obligations.DecodeIsFunctionOfInput : Prop :=
  ∀ (s u : State) (k : Nat), s.phase.isQuiescent = true → u.phase.isQuiescent = true → s.inbox = [] → u.inbox = [] →
    s.inMem = u.inMem → s.inLen = u.inLen → s.maxOutBytes = u.maxOutBytes → s.inputWritten →
    OutcomeAgree SameDecode (Host.Core.run Sys2Proof.core k s.start) (Host.Core.run Sys2Proof.core k u.start)

/-- R152, R65, R202: an operator step depends on no byte of `IN` but the eight at `POS`, and on none at or beyond
`IN_LEN`. -/
def Obligations.StepReadsEightBytesAtMost : Prop :=
  ∀ s u : State, s.phase = .body → s.inbox = [] → SameButInput s u →
    (∀ j, j < 8 → s.pos + j < s.inLen → s.inByte (s.pos + j) = u.inByte (s.pos + j)) →
    OutcomeAgree SameButInput (step s) (step u)

/-- R126: `COLORSPACE` affects nothing else: two states that differ in it alone step alike, whatever the step. -/
def Obligations.ColorspaceAffectsNothing : Prop :=
  ∀ s u : State, SameButColorspace s u → OutcomeAgree SameButColorspace (step s) (step u)

/-- R21, R26: in RGB mode the a lanes are never read: two states of a body that differ in them alone run alike for any
number of steps. -/
def Obligations.RgbModeIgnoresAlphaLanes : Prop :=
  ∀ (s u : State) (k : Nat), s.channels = 3 → s.phase ≠ .header → s.inbox = [] → SameButAlpha s u →
    OutcomeAgree SameButAlpha (Host.Core.run Sys2Proof.core k s) (Host.Core.run Sys2Proof.core k u)

/-- R45: a block step that reaches `DONE` leaves `POS` at an end marker inside the input, with the right output length. -/
def Obligations.DoneStandsAtMarker : Prop :=
  ∀ s t : State, s.inbox = [] → step s = .next t → t.phase = .done →
    t.markerAtPos ∧ t.outLen = t.expectedLen ∧ t.pos = s.pos ∧ t.outMem = s.outMem ∧ t.px = s.px ∧ t.hist = s.hist

/-- R262, R71: at `DONE` the result is the header with `OUT`'s bytes, `WIDTH * HEIGHT * CHANNELS` of them; at `ERROR` it
is the error and no bytes. -/
def Obligations.ResultAtQuiescence : Prop :=
  ∀ s : State, s.Inv →
    (s.phase = .done → ∃ bytes, s.result = .ok s.width s.height s.channels s.colorspace bytes ∧
      bytes.length = s.width.toNat * s.height.toNat * s.channels.toNat ∧ ∀ k < s.outLen, bytes[k]? = s.outMem.read k) ∧
    (s.phase = .error → ∃ e, s.errCode = some e ∧ s.result = .err e s.errInfo)
end

