-- ==== Sys2Proof/Laws/Decode.lean ====
section
/-! SUPPORT. The small lemmas of the decoder and encoder: field extraction against assembly, and what the decoder answers
for each first byte. -/

namespace Sys2Proof

/-! ## Fields of an assembled byte (30_encoding.md R92 to R95) -/

@[simp] theorem tagOf_tagByte (t : BitVec 2) (p : BitVec 6) : tagOf (tagByte t p) = t := by
  revert t p; decide

@[simp] theorem payloadOf_tagByte (t : BitVec 2) (p : BitVec 6) : payloadOf (tagByte t p) = p := by
  revert t p; decide

@[simp] theorem tagByte_tagOf_payloadOf (op : Byte) : tagByte (tagOf op) (payloadOf op) = op := by
  revert op; decide

@[simp] theorem diffRed_tagByte (t rf gf bf : BitVec 2) : diffRed (tagByte t (diffPayload rf gf bf)) = rf := by
  revert t rf gf bf; decide

@[simp] theorem diffGreen_tagByte (t rf gf bf : BitVec 2) : diffGreen (tagByte t (diffPayload rf gf bf)) = gf := by
  revert t rf gf bf; decide

@[simp] theorem diffBlue_tagByte (t rf gf bf : BitVec 2) : diffBlue (tagByte t (diffPayload rf gf bf)) = bf := by
  revert t rf gf bf; decide

@[simp] theorem diffPayload_fields (op : Byte) : diffPayload (diffRed op) (diffGreen op) (diffBlue op) = payloadOf op := by
  revert op; decide

@[simp] theorem highNibble_lumaByte (rf bf : BitVec 4) : highNibble (lumaByte rf bf) = rf := by
  revert rf bf; decide

@[simp] theorem lowNibble_lumaByte (rf bf : BitVec 4) : lowNibble (lumaByte rf bf) = bf := by
  revert rf bf; decide

@[simp] theorem lumaByte_nibbles (next : Byte) : lumaByte (highNibble next) (lowNibble next) = next := by
  revert next; decide

theorem tagOf_toNat (op : Byte) : (tagOf op).toNat = op.toNat / 64 := by
  revert op; decide

theorem payloadOf_toNat (op : Byte) : (payloadOf op).toNat = op.toNat % 64 := by
  revert op; decide

theorem diffRed_eq (op : Byte) : diffRed op = BitVec.ofNat 2 (op.toNat / 16) := by
  apply BitVec.eq_of_toNat_eq
  simp [diffRed, Nat.shiftRight_eq_div_pow]

theorem diffGreen_eq (op : Byte) : diffGreen op = BitVec.ofNat 2 (op.toNat / 4) := by
  apply BitVec.eq_of_toNat_eq
  simp [diffGreen, Nat.shiftRight_eq_div_pow]

theorem diffBlue_eq (op : Byte) : diffBlue op = BitVec.ofNat 2 op.toNat := by
  apply BitVec.eq_of_toNat_eq
  simp [diffBlue]

theorem highNibble_eq (next : Byte) : highNibble next = BitVec.ofNat 4 (next.toNat / 16) := by
  apply BitVec.eq_of_toNat_eq
  simp [highNibble, Nat.shiftRight_eq_div_pow]

theorem lowNibble_eq (next : Byte) : lowNibble next = BitVec.ofNat 4 next.toNat := by
  apply BitVec.eq_of_toNat_eq
  simp [lowNibble]

/-! ## The tag by ranges of the first byte (R103) -/

theorem tagOf_eq_zero : ∀ op : Byte, tagOf op = 0 ↔ op.toNat ≤ 0x3F := by decide

theorem tagOf_eq_one : ∀ op : Byte, tagOf op = 1 ↔ 0x40 ≤ op.toNat ∧ op.toNat ≤ 0x7F := by decide

theorem tagOf_eq_two : ∀ op : Byte, tagOf op = 2 ↔ 0x80 ≤ op.toNat ∧ op.toNat ≤ 0xBF := by decide

theorem tagOf_eq_three : ∀ op : Byte, tagOf op = 3 ↔ 0xC0 ≤ op.toNat := by decide

theorem tagOf_other : ∀ op : Byte, tagOf op ≠ 0 → tagOf op ≠ 1 → tagOf op ≠ 2 → tagOf op = 3 := by decide

theorem eq_rgb_tag : ∀ op : Byte, tagOf op = 3 → payloadOf op = 62 → op = 0xFE := by decide

theorem eq_rgba_tag : ∀ op : Byte, tagOf op = 3 → payloadOf op = 63 → op = 0xFF := by decide

theorem run_payload_le : ∀ p : BitVec 6, p ≠ 62 → p ≠ 63 → p.toNat ≤ 61 := by decide

theorem run_payload_ne : ∀ p : BitVec 6, p.toNat ≤ 61 → p ≠ 62 ∧ p ≠ 63 := by decide

/-! ## Big-endian numbers (20_memory.md R60) -/

theorem be32_byteOfU32 (w : U32) :
    be32 (byteOfU32 w 3) (byteOfU32 w 2) (byteOfU32 w 1) (byteOfU32 w 0) = w := by
  apply BitVec.eq_of_toNat_eq
  have hw := w.isLt
  simp only [be32, byteOfU32, BitVec.toNat_ofNat]
  omega

theorem byteOfU32_be32 (b0 b1 b2 b3 : Byte) :
    byteOfU32 (be32 b0 b1 b2 b3) 3 = b0 ∧ byteOfU32 (be32 b0 b1 b2 b3) 2 = b1 ∧
      byteOfU32 (be32 b0 b1 b2 b3) 1 = b2 ∧ byteOfU32 (be32 b0 b1 b2 b3) 0 = b3 := by
  have h0 := b0.isLt
  have h1 := b1.isLt
  have h2 := b2.isLt
  have h3 := b3.isLt
  refine ⟨?_, ?_, ?_, ?_⟩ <;> apply BitVec.eq_of_toNat_eq <;>
    simp only [be32, byteOfU32, BitVec.toNat_ofNat] <;> omega

/-! ## The decoder by its first byte -/

/-- A first byte other than `0x00` cannot begin the end marker (R106, R107). -/
theorem take_ne_endMarker {op : Byte} (operands : List Byte) (h : op ≠ 0) :
    (op :: operands).take 8 ≠ endMarkerBytes := by
  intro heq
  exact h (List.cons.inj heq).1

theorem decodeOperator_cons {op : Byte} {operands : List Byte}
    (h : (op :: operands).take 8 ≠ endMarkerBytes) : decodeOperator (op :: operands) = decodeTag op operands := by
  unfold decodeOperator
  rw [if_neg h]

@[simp] theorem decodeOperator_nil : decodeOperator [] = .reject .exhausted := rfl

theorem decodeOperator_endMarker {bs : List Byte} (h : bs.take 8 = endMarkerBytes) :
    decodeOperator bs = .instr .endMarker := by
  unfold decodeOperator
  rw [if_pos h]

/-! Each arm of the dispatch (R144). -/

theorem decodeTag_index {op : Byte} {xs : List Byte} (h : tagOf op = 0) :
    decodeTag op xs = .instr (.index (payloadOf op)) := by
  rw [decodeTag, if_pos h]

theorem decodeTag_diff {op : Byte} {xs : List Byte} (h : tagOf op = 1) :
    decodeTag op xs = .instr (.diff (diffRed op) (diffGreen op) (diffBlue op)) := by
  rw [decodeTag, if_neg (by rw [h]; decide), if_pos h]

theorem decodeTag_luma {op : Byte} {xs : List Byte} (h : tagOf op = 2) : decodeTag op xs = decodeLuma op xs := by
  rw [decodeTag, if_neg (by rw [h]; decide), if_neg (by rw [h]; decide), if_pos h]

theorem decodeTag_three {op : Byte} {xs : List Byte} (h : tagOf op = 3) : decodeTag op xs = decodeTag3 op xs := by
  rw [decodeTag, if_neg (by rw [h]; decide), if_neg (by rw [h]; decide), if_neg (by rw [h]; decide)]

theorem decodeTag_rgb (xs : List Byte) : decodeTag 0xFE xs = decodeRgb xs := rfl

theorem decodeTag_rgba (xs : List Byte) : decodeTag 0xFF xs = decodeRgba xs := rfl

theorem decodeTag_run {op : Byte} {xs : List Byte} (h : tagOf op = 3) (hl : (payloadOf op).toNat ≤ 61) :
    decodeTag op xs = .instr (.run (payloadOf op)) := by
  obtain ⟨h62, h63⟩ := run_payload_ne _ hl
  rw [decodeTag_three h, decodeTag3, if_neg h62, if_neg h63]

/-- What the dispatch can answer, said once (R103 step 3). -/
theorem decodeTag_cases {op : Byte} {xs : List Byte} {i : Instr} (h : decodeTag op xs = .instr i) :
    (tagOf op = 0 ∧ i = .index (payloadOf op)) ∨
      (tagOf op = 1 ∧ i = .diff (diffRed op) (diffGreen op) (diffBlue op)) ∨
      (∃ next more, tagOf op = 2 ∧ xs = next :: more ∧
        i = .luma (payloadOf op) (highNibble next) (lowNibble next)) ∨
      (∃ r g b more, op = 0xFE ∧ xs = r :: g :: b :: more ∧ i = .rgb r g b) ∨
      (∃ r g b a more, op = 0xFF ∧ xs = r :: g :: b :: a :: more ∧ i = .rgba r g b a) ∨
      (tagOf op = 3 ∧ (payloadOf op).toNat ≤ 61 ∧ i = .run (payloadOf op)) := by
  by_cases h0 : tagOf op = 0
  · rw [decodeTag_index h0] at h
    exact .inl ⟨h0, by simpa using h.symm⟩
  by_cases h1 : tagOf op = 1
  · rw [decodeTag_diff h1] at h
    exact .inr (.inl ⟨h1, by simpa using h.symm⟩)
  by_cases h2 : tagOf op = 2
  · rw [decodeTag_luma h2] at h
    match xs, h with
    | next :: more, h => exact .inr (.inr (.inl ⟨next, more, h2, rfl, by simpa [decodeLuma] using h.symm⟩))
  have h3 := tagOf_other op h0 h1 h2
  rw [decodeTag_three h3, decodeTag3] at h
  split at h
  · rename_i hp
    match xs, h with
    | r :: g :: b :: more, h =>
      exact .inr (.inr (.inr (.inl ⟨r, g, b, more, eq_rgb_tag op h3 hp, rfl, by simpa [decodeRgb] using h.symm⟩)))
  · rename_i hp
    split at h
    · rename_i hp'
      match xs, h with
      | r :: g :: b :: a :: more, h =>
        exact .inr (.inr (.inr (.inr (.inl
          ⟨r, g, b, a, more, eq_rgba_tag op h3 hp', rfl, by simpa [decodeRgba] using h.symm⟩))))
    · rename_i hp'
      exact .inr (.inr (.inr (.inr (.inr ⟨h3, run_payload_le _ hp hp', by simpa using h.symm⟩))))

/-- The dispatch rejects for want of operand bytes only: fewer than 1, 3 or 4 after a LUMA, RGB or RGBA tag (R143). -/
theorem decodeTag_reject {op : Byte} {xs : List Byte} {r : DecodeReject} (h : decodeTag op xs = .reject r) :
    r = .truncated ∧ ((tagOf op = 2 ∧ xs.length < 1) ∨ (op = 0xFE ∧ xs.length < 3) ∨ (op = 0xFF ∧ xs.length < 4)) := by
  by_cases h0 : tagOf op = 0
  · simp [decodeTag_index h0] at h
  by_cases h1 : tagOf op = 1
  · simp [decodeTag_diff h1] at h
  by_cases h2 : tagOf op = 2
  · rw [decodeTag_luma h2] at h
    match xs, h with
    | [], h => exact ⟨by simpa [decodeLuma] using h.symm, .inl ⟨h2, by simp⟩⟩
  have h3 := tagOf_other op h0 h1 h2
  rw [decodeTag_three h3, decodeTag3] at h
  split at h
  · rename_i hp
    have hop := eq_rgb_tag op h3 hp
    match xs, h with
    | [], h => exact ⟨by simpa [decodeRgb] using h.symm, .inr (.inl ⟨hop, by simp⟩)⟩
    | [_], h => exact ⟨by simpa [decodeRgb] using h.symm, .inr (.inl ⟨hop, by simp⟩)⟩
    | [_, _], h => exact ⟨by simpa [decodeRgb] using h.symm, .inr (.inl ⟨hop, by simp⟩)⟩
  · split at h
    · rename_i hp
      have hop := eq_rgba_tag op h3 hp
      match xs, h with
      | [], h => exact ⟨by simpa [decodeRgba] using h.symm, .inr (.inr ⟨hop, by simp⟩)⟩
      | [_], h => exact ⟨by simpa [decodeRgba] using h.symm, .inr (.inr ⟨hop, by simp⟩)⟩
      | [_, _], h => exact ⟨by simpa [decodeRgba] using h.symm, .inr (.inr ⟨hop, by simp⟩)⟩
      | [_, _, _], h => exact ⟨by simpa [decodeRgba] using h.symm, .inr (.inr ⟨hop, by simp⟩)⟩
    · simp at h

/-- What the operator decoder can answer, said once (R103). -/
theorem decodeOperator_cases {bs : List Byte} {i : Instr} (h : decodeOperator bs = .instr i) :
    (bs.take 8 = endMarkerBytes ∧ i = .endMarker) ∨
      (bs.take 8 ≠ endMarkerBytes ∧ ∃ op xs, bs = op :: xs ∧ decodeTag op xs = .instr i) := by
  unfold decodeOperator at h
  split at h
  · exact .inl ⟨‹_›, by simpa using h.symm⟩
  · rename_i hm
    match bs, h with
    | op :: xs, h => exact .inr ⟨hm, op, xs, rfl, h⟩

/-- The operator decoder rejects for want of bytes only (R104). -/
theorem decodeOperator_reject {bs : List Byte} {r : DecodeReject} (h : decodeOperator bs = .reject r) :
    (bs = [] ∧ r = .exhausted) ∨ (∃ op xs, bs = op :: xs ∧ decodeTag op xs = .reject r ∧ r = .truncated) := by
  unfold decodeOperator at h
  split at h
  · simp at h
  · match bs, h with
    | [], h => exact .inl ⟨rfl, by simpa using h.symm⟩
    | op :: xs, h => exact .inr ⟨op, xs, rfl, h, (decodeTag_reject h).1⟩

/-- The header decoder answers a header record, `tooShort` or `badMagic`. -/
theorem decodeHeader_cases (bs : List Byte) :
    (decodeHeader bs = .reject .tooShort ∧ bs.length < 14) ∨
      (decodeHeader bs = .reject .badMagic ∧ 14 ≤ bs.length ∧ bs.take 4 ≠ magicBytes) ∨
      ∃ w h c s, decodeHeader bs = .instr (.hdr w h c s) ∧ 14 ≤ bs.length ∧ bs.take 4 = magicBytes := by
  unfold decodeHeader
  split
  · exact .inl ⟨rfl, ‹_›⟩
  · rename_i hlen
    split
    · exact .inr (.inl ⟨rfl, by omega, ‹_›⟩)
    · rename_i hmagic
      refine .inr (.inr ?_)
      obtain ⟨xs, hxs⟩ : ∃ xs, bs.drop 4 = xs := ⟨_, rfl⟩
      have hl : 10 ≤ xs.length := by rw [← hxs, List.length_drop]; omega
      rw [hxs]
      match xs, hl with
      | w0 :: w1 :: w2 :: w3 :: h0 :: h1 :: h2 :: h3 :: c :: s :: _, _ =>
        exact ⟨_, _, _, _, rfl, by omega, not_not.1 hmagic⟩

/-! ## Lengths (R90) -/

@[simp] theorem encode_length (i : Instr) : (encode i).length = i.length := by
  cases i <;> rfl

theorem Instr.length_pos (i : Instr) : 1 ≤ i.length := by
  cases i <;> simp [Instr.length]

end Sys2Proof
end

