-- ==== Sys2Proof/Laws/Memory.lean ====
section
/-! SUPPORT. The laws of a byte space: a read after a write, the canonical form kept by every operation, and equal
contents being equal data. -/

namespace Sys2Proof.Machine

@[simp] theorem Memory.read_nil (a : Nat) : Memory.read [] a = none := rfl

theorem Memory.read_cons (c : Host.Cell) (m : Memory) (a : Nat) :
    Memory.read (c :: m) a = if c.1 = a then some c.2 else Memory.read m a := rfl

/-! ## The canonical form -/

theorem Memory.wf_cons (c : Host.Cell) (m : Memory) :
    Memory.wf (c :: m) = true ↔ (∀ d ∈ m.head?, c.1 < d.1) ∧ Memory.wf m = true := by
  cases m <;> simp [Memory.wf]

theorem Memory.wf_tail {c : Host.Cell} {m : Memory} (h : Memory.wf (c :: m) = true) : Memory.wf m = true :=
  ((Memory.wf_cons c m).1 h).2

/-- Every listed offset is above the first. -/
theorem Memory.wf_head_lt {c : Host.Cell} {m : Memory} (h : Memory.wf (c :: m) = true) :
    ∀ d ∈ m, c.1 < d.1 := by
  induction m generalizing c with
  | nil => simp
  | cons e m ih =>
    have hce : c.1 < e.1 := ((Memory.wf_cons c (e :: m)).1 h).1 e rfl
    intro d hd
    rcases List.mem_cons.1 hd with rfl | hd
    · exact hce
    · exact lt_trans hce (ih (Memory.wf_tail h) d hd)

theorem Memory.read_eq_none_of_lt {m : Memory} {a : Nat} (h : ∀ d ∈ m, a < d.1) : m.read a = none := by
  induction m with
  | nil => rfl
  | cons c m ih =>
    have hc : c.1 ≠ a := (h c (by simp)).ne'
    rw [Memory.read_cons, if_neg hc]
    exact ih fun d hd => h d (by simp [hd])

/-! ## Read after write -/

@[simp] theorem Memory.read_write_self (m : Memory) (a : Nat) (b : Byte) : (m.write a b).read a = some b := by
  induction m with
  | nil => simp [Memory.write, Memory.read]
  | cons c m ih =>
    unfold Memory.write
    split
    · simp [Memory.read]
    · split
      · simp [Memory.read]
      · rw [Memory.read_cons, if_neg (by omega), ih]

theorem Memory.read_write_other (m : Memory) {a a' : Nat} (b : Byte) (h : a ≠ a') :
    (m.write a b).read a' = m.read a' := by
  induction m with
  | nil => simp [Memory.write, Memory.read, h]
  | cons c m ih =>
    unfold Memory.write
    split
    · simp [Memory.read, h]
    · split
      · rename_i hc
        simp [Memory.read, h, ← hc]
      · simp only [Memory.read_cons, ih]

theorem Memory.head?_write (m : Memory) (a : Nat) (b : Byte) :
    ∀ d ∈ (m.write a b).head?, d.1 = a ∨ d ∈ m.head? := by
  cases m with
  | nil => simp [Memory.write]
  | cons c m =>
    unfold Memory.write
    split
    · simp
    · split <;> simp

theorem Memory.wf_write {m : Memory} (h : m.wf = true) (a : Nat) (b : Byte) : (m.write a b).wf = true := by
  induction m with
  | nil => rfl
  | cons c m ih =>
    have hc := (Memory.wf_cons c m).1 h
    unfold Memory.write
    split
    · rename_i hlt
      exact (Memory.wf_cons _ _).2 ⟨by simpa using hlt, h⟩
    · split
      · rename_i heq
        exact (Memory.wf_cons _ _).2 ⟨by simpa [heq] using hc.1, hc.2⟩
      · refine (Memory.wf_cons _ _).2 ⟨fun d hd => ?_, ih hc.2⟩
        rcases Memory.head?_write m a b d hd with hd | hd
        · omega
        · exact hc.1 d hd

/-! ## Writing several bytes -/

@[simp] theorem Memory.writeBytes_nil (m : Memory) (a : Nat) : m.writeBytes a [] = m := rfl

@[simp] theorem Memory.writeBytes_cons (m : Memory) (a : Nat) (b : Byte) (bs : List Byte) :
    m.writeBytes a (b :: bs) = (m.write a b).writeBytes (a + 1) bs := rfl

theorem Memory.wf_writeBytes {m : Memory} (h : m.wf = true) (a : Nat) (bs : List Byte) :
    (m.writeBytes a bs).wf = true := by
  induction bs generalizing m a with
  | nil => exact h
  | cons b bs ih => exact ih (Memory.wf_write h a b) (a + 1)

theorem Memory.read_writeBytes (m : Memory) (a : Nat) (bs : List Byte) (k : Nat) :
    (m.writeBytes a bs).read k = if a ≤ k ∧ k < a + bs.length then bs[k - a]? else m.read k := by
  induction bs generalizing m a with
  | nil =>
    have : ¬(a ≤ k ∧ k < a + ([] : List Byte).length) := by simp
    rw [if_neg this, Memory.writeBytes_nil]
  | cons b bs ih =>
    rw [Memory.writeBytes_cons, ih]
    rcases Nat.lt_trichotomy k a with hk | hk | hk
    · rw [if_neg (by omega), if_neg (by omega), Memory.read_write_other _ _ (by omega)]
    · subst hk
      simp
    · have hsub : k - a = (k - (a + 1)) + 1 := by omega
      by_cases hlt : k < a + 1 + bs.length
      · rw [if_pos ⟨by omega, hlt⟩, if_pos ⟨by omega, by simp; omega⟩, hsub, List.getElem?_cons_succ]
      · rw [if_neg (by omega), if_neg (by simp; omega), Memory.read_write_other _ _ (by omega)]

/-! ## The listed offsets of an append -/

theorem Memory.write_at_end {m : Memory} {a : Nat} (b : Byte) (h : ∀ d ∈ m, d.1 < a) : m.write a b = m ++ [(a, b)] := by
  induction m with
  | nil => rfl
  | cons c m ih =>
    have hc : c.1 < a := h c (by simp)
    unfold Memory.write
    rw [if_neg (by omega), if_neg (by omega), ih fun d hd => h d (by simp [hd])]
    rfl

/-- An append at the end of a space that lists exactly the offsets below `n` lists exactly those below `n` plus its
length. -/
theorem Memory.offsets_append {m : Memory} {n : Nat} (h : m.map Prod.fst = List.range n) (bs : List Byte) :
    (m.writeBytes n bs).map Prod.fst = List.range (n + bs.length) := by
  induction bs generalizing m n with
  | nil => simpa using h
  | cons b bs ih =>
    have hlt : ∀ d ∈ m, d.1 < n := fun d hd => by
      have : d.1 ∈ m.map Prod.fst := List.mem_map_of_mem hd
      rw [h] at this
      exact List.mem_range.1 this
    rw [Memory.writeBytes_cons, Memory.write_at_end b hlt]
    have hnext : (m ++ [(n, b)]).map Prod.fst = List.range (n + 1) := by
      rw [List.map_append, h, List.range_succ]
      rfl
    rw [ih hnext]
    congr 1
    simp
    omega

end Sys2Proof.Machine
end

