-- ==== Sys2Proof/Laws/State.lean ====
section
/-! SUPPORT. What each state update leaves in each field: one lemma per field per update, so that no later proof unfolds
a record update. -/

namespace Sys2Proof.Machine

variable (s : State)

/-! ## Setting `PHASE` (10_state.md R30) -/

@[simp] theorem State.setPhase_px (p : Phase) : (s.setPhase p).px = s.px := rfl
@[simp] theorem State.setPhase_hist (p : Phase) : (s.setPhase p).hist = s.hist := rfl
@[simp] theorem State.setPhase_pos (p : Phase) : (s.setPhase p).pos = s.pos := rfl
@[simp] theorem State.setPhase_phase (p : Phase) : (s.setPhase p).phase = p := rfl
@[simp] theorem State.setPhase_hdrValid (p : Phase) : (s.setPhase p).hdrValid = s.hdrValid := rfl
@[simp] theorem State.setPhase_width (p : Phase) : (s.setPhase p).width = s.width := rfl
@[simp] theorem State.setPhase_height (p : Phase) : (s.setPhase p).height = s.height := rfl
@[simp] theorem State.setPhase_channels (p : Phase) : (s.setPhase p).channels = s.channels := rfl
@[simp] theorem State.setPhase_colorspace (p : Phase) : (s.setPhase p).colorspace = s.colorspace := rfl
@[simp] theorem State.setPhase_expectedLen (p : Phase) : (s.setPhase p).expectedLen = s.expectedLen := rfl
@[simp] theorem State.setPhase_outLen (p : Phase) : (s.setPhase p).outLen = s.outLen := rfl
@[simp] theorem State.setPhase_errCode (p : Phase) : (s.setPhase p).errCode = s.errCode := rfl
@[simp] theorem State.setPhase_errInfo (p : Phase) : (s.setPhase p).errInfo = s.errInfo := rfl
@[simp] theorem State.setPhase_inLen (p : Phase) : (s.setPhase p).inLen = s.inLen := rfl
@[simp] theorem State.setPhase_inMem (p : Phase) : (s.setPhase p).inMem = s.inMem := rfl
@[simp] theorem State.setPhase_outMem (p : Phase) : (s.setPhase p).outMem = s.outMem := rfl
@[simp] theorem State.setPhase_maxOutBytes (p : Phase) : (s.setPhase p).maxOutBytes = s.maxOutBytes := rfl
@[simp] theorem State.setPhase_inLenMax (p : Phase) : (s.setPhase p).inLenMax = s.inLenMax := rfl
@[simp] theorem State.setPhase_epoch (p : Phase) : (s.setPhase p).epoch = s.epoch := rfl
@[simp] theorem State.setPhase_inbox (p : Phase) : (s.setPhase p).inbox = s.inbox := rfl
@[simp] theorem State.setPhase_mode (p : Phase) : (s.setPhase p).mode = s.mode := rfl
@[simp] theorem State.setPhase_cs (p : Phase) : (s.setPhase p).cs = s.cs := rfl

/-! ## Dropping the host's consumed move (log 4) -/

@[simp] theorem State.setInbox_px (moves : List HostMove) : (s.setInbox moves).px = s.px := rfl
@[simp] theorem State.setInbox_hist (moves : List HostMove) : (s.setInbox moves).hist = s.hist := rfl
@[simp] theorem State.setInbox_pos (moves : List HostMove) : (s.setInbox moves).pos = s.pos := rfl
@[simp] theorem State.setInbox_phase (moves : List HostMove) : (s.setInbox moves).phase = s.phase := rfl
@[simp] theorem State.setInbox_hdrValid (moves : List HostMove) : (s.setInbox moves).hdrValid = s.hdrValid := rfl
@[simp] theorem State.setInbox_width (moves : List HostMove) : (s.setInbox moves).width = s.width := rfl
@[simp] theorem State.setInbox_height (moves : List HostMove) : (s.setInbox moves).height = s.height := rfl
@[simp] theorem State.setInbox_channels (moves : List HostMove) : (s.setInbox moves).channels = s.channels := rfl
@[simp] theorem State.setInbox_colorspace (moves : List HostMove) :
    (s.setInbox moves).colorspace = s.colorspace := rfl
@[simp] theorem State.setInbox_expectedLen (moves : List HostMove) :
    (s.setInbox moves).expectedLen = s.expectedLen := rfl
@[simp] theorem State.setInbox_outLen (moves : List HostMove) : (s.setInbox moves).outLen = s.outLen := rfl
@[simp] theorem State.setInbox_errCode (moves : List HostMove) : (s.setInbox moves).errCode = s.errCode := rfl
@[simp] theorem State.setInbox_errInfo (moves : List HostMove) : (s.setInbox moves).errInfo = s.errInfo := rfl
@[simp] theorem State.setInbox_inLen (moves : List HostMove) : (s.setInbox moves).inLen = s.inLen := rfl
@[simp] theorem State.setInbox_inMem (moves : List HostMove) : (s.setInbox moves).inMem = s.inMem := rfl
@[simp] theorem State.setInbox_outMem (moves : List HostMove) : (s.setInbox moves).outMem = s.outMem := rfl
@[simp] theorem State.setInbox_maxOutBytes (moves : List HostMove) :
    (s.setInbox moves).maxOutBytes = s.maxOutBytes := rfl
@[simp] theorem State.setInbox_inLenMax (moves : List HostMove) : (s.setInbox moves).inLenMax = s.inLenMax := rfl
@[simp] theorem State.setInbox_epoch (moves : List HostMove) : (s.setInbox moves).epoch = s.epoch := rfl
@[simp] theorem State.setInbox_inbox (moves : List HostMove) : (s.setInbox moves).inbox = moves := rfl
@[simp] theorem State.setInbox_mode (moves : List HostMove) : (s.setInbox moves).mode = s.mode := rfl
@[simp] theorem State.setInbox_cs (moves : List HostMove) : (s.setInbox moves).cs = s.cs := rfl

/-! ## Writing `PX` (R22) -/

@[simp] theorem State.setPx_px (p : Pixel) : (s.setPx p).px = s.mode.merge p s.px := rfl
@[simp] theorem State.setPx_hist (p : Pixel) : (s.setPx p).hist = s.hist := rfl
@[simp] theorem State.setPx_pos (p : Pixel) : (s.setPx p).pos = s.pos := rfl
@[simp] theorem State.setPx_phase (p : Pixel) : (s.setPx p).phase = s.phase := rfl
@[simp] theorem State.setPx_hdrValid (p : Pixel) : (s.setPx p).hdrValid = s.hdrValid := rfl
@[simp] theorem State.setPx_width (p : Pixel) : (s.setPx p).width = s.width := rfl
@[simp] theorem State.setPx_height (p : Pixel) : (s.setPx p).height = s.height := rfl
@[simp] theorem State.setPx_channels (p : Pixel) : (s.setPx p).channels = s.channels := rfl
@[simp] theorem State.setPx_colorspace (p : Pixel) : (s.setPx p).colorspace = s.colorspace := rfl
@[simp] theorem State.setPx_expectedLen (p : Pixel) : (s.setPx p).expectedLen = s.expectedLen := rfl
@[simp] theorem State.setPx_outLen (p : Pixel) : (s.setPx p).outLen = s.outLen := rfl
@[simp] theorem State.setPx_errCode (p : Pixel) : (s.setPx p).errCode = s.errCode := rfl
@[simp] theorem State.setPx_errInfo (p : Pixel) : (s.setPx p).errInfo = s.errInfo := rfl
@[simp] theorem State.setPx_inLen (p : Pixel) : (s.setPx p).inLen = s.inLen := rfl
@[simp] theorem State.setPx_inMem (p : Pixel) : (s.setPx p).inMem = s.inMem := rfl
@[simp] theorem State.setPx_outMem (p : Pixel) : (s.setPx p).outMem = s.outMem := rfl
@[simp] theorem State.setPx_maxOutBytes (p : Pixel) : (s.setPx p).maxOutBytes = s.maxOutBytes := rfl
@[simp] theorem State.setPx_inLenMax (p : Pixel) : (s.setPx p).inLenMax = s.inLenMax := rfl
@[simp] theorem State.setPx_epoch (p : Pixel) : (s.setPx p).epoch = s.epoch := rfl
@[simp] theorem State.setPx_inbox (p : Pixel) : (s.setPx p).inbox = s.inbox := rfl
@[simp] theorem State.setPx_mode (p : Pixel) : (s.setPx p).mode = s.mode := rfl
@[simp] theorem State.setPx_cs (p : Pixel) : (s.setPx p).cs = s.cs := rfl

/-! ## The index store (41_operator_step.md R149) -/

@[simp] theorem State.storeHist_px : s.storeHist.px = s.px := rfl
theorem State.storeHist_hist :
    s.storeHist.hist = s.hist.set s.hashIndex (s.mode.merge s.px s.hist[s.hashIndex]) := rfl
@[simp] theorem State.storeHist_pos : s.storeHist.pos = s.pos := rfl
@[simp] theorem State.storeHist_phase : s.storeHist.phase = s.phase := rfl
@[simp] theorem State.storeHist_hdrValid : s.storeHist.hdrValid = s.hdrValid := rfl
@[simp] theorem State.storeHist_width : s.storeHist.width = s.width := rfl
@[simp] theorem State.storeHist_height : s.storeHist.height = s.height := rfl
@[simp] theorem State.storeHist_channels : s.storeHist.channels = s.channels := rfl
@[simp] theorem State.storeHist_colorspace : s.storeHist.colorspace = s.colorspace := rfl
@[simp] theorem State.storeHist_expectedLen : s.storeHist.expectedLen = s.expectedLen := rfl
@[simp] theorem State.storeHist_outLen : s.storeHist.outLen = s.outLen := rfl
@[simp] theorem State.storeHist_errCode : s.storeHist.errCode = s.errCode := rfl
@[simp] theorem State.storeHist_errInfo : s.storeHist.errInfo = s.errInfo := rfl
@[simp] theorem State.storeHist_inLen : s.storeHist.inLen = s.inLen := rfl
@[simp] theorem State.storeHist_inMem : s.storeHist.inMem = s.inMem := rfl
@[simp] theorem State.storeHist_outMem : s.storeHist.outMem = s.outMem := rfl
@[simp] theorem State.storeHist_maxOutBytes : s.storeHist.maxOutBytes = s.maxOutBytes := rfl
@[simp] theorem State.storeHist_inLenMax : s.storeHist.inLenMax = s.inLenMax := rfl
@[simp] theorem State.storeHist_epoch : s.storeHist.epoch = s.epoch := rfl
@[simp] theorem State.storeHist_inbox : s.storeHist.inbox = s.inbox := rfl
@[simp] theorem State.storeHist_mode : s.storeHist.mode = s.mode := rfl
@[simp] theorem State.storeHist_cs : s.storeHist.cs = s.cs := rfl

/-! ## The output append (R150) -/

@[simp] theorem State.appendPixels_px (n : Nat) : (s.appendPixels n).px = s.px := rfl
@[simp] theorem State.appendPixels_hist (n : Nat) : (s.appendPixels n).hist = s.hist := rfl
@[simp] theorem State.appendPixels_pos (n : Nat) : (s.appendPixels n).pos = s.pos := rfl
@[simp] theorem State.appendPixels_phase (n : Nat) : (s.appendPixels n).phase = s.phase := rfl
@[simp] theorem State.appendPixels_hdrValid (n : Nat) : (s.appendPixels n).hdrValid = s.hdrValid := rfl
@[simp] theorem State.appendPixels_width (n : Nat) : (s.appendPixels n).width = s.width := rfl
@[simp] theorem State.appendPixels_height (n : Nat) : (s.appendPixels n).height = s.height := rfl
@[simp] theorem State.appendPixels_channels (n : Nat) : (s.appendPixels n).channels = s.channels := rfl
@[simp] theorem State.appendPixels_colorspace (n : Nat) : (s.appendPixels n).colorspace = s.colorspace := rfl
@[simp] theorem State.appendPixels_expectedLen (n : Nat) : (s.appendPixels n).expectedLen = s.expectedLen := rfl
@[simp] theorem State.appendPixels_outLen (n : Nat) : (s.appendPixels n).outLen = s.outLen + n * s.cs := rfl
@[simp] theorem State.appendPixels_errCode (n : Nat) : (s.appendPixels n).errCode = s.errCode := rfl
@[simp] theorem State.appendPixels_errInfo (n : Nat) : (s.appendPixels n).errInfo = s.errInfo := rfl
@[simp] theorem State.appendPixels_inLen (n : Nat) : (s.appendPixels n).inLen = s.inLen := rfl
@[simp] theorem State.appendPixels_inMem (n : Nat) : (s.appendPixels n).inMem = s.inMem := rfl
@[simp] theorem State.appendPixels_outMem (n : Nat) :
    (s.appendPixels n).outMem = s.outMem.writeBytes s.outLen (repeatedPixel n s.mode s.px) := rfl
@[simp] theorem State.appendPixels_maxOutBytes (n : Nat) : (s.appendPixels n).maxOutBytes = s.maxOutBytes := rfl
@[simp] theorem State.appendPixels_inLenMax (n : Nat) : (s.appendPixels n).inLenMax = s.inLenMax := rfl
@[simp] theorem State.appendPixels_epoch (n : Nat) : (s.appendPixels n).epoch = s.epoch := rfl
@[simp] theorem State.appendPixels_inbox (n : Nat) : (s.appendPixels n).inbox = s.inbox := rfl
@[simp] theorem State.appendPixels_mode (n : Nat) : (s.appendPixels n).mode = s.mode := rfl
@[simp] theorem State.appendPixels_cs (n : Nat) : (s.appendPixels n).cs = s.cs := rfl

/-! ## The advance (R151) -/

@[simp] theorem State.advance_px (k : Nat) : (s.advance k).px = s.px := rfl
@[simp] theorem State.advance_hist (k : Nat) : (s.advance k).hist = s.hist := rfl
@[simp] theorem State.advance_pos (k : Nat) : (s.advance k).pos = s.pos + 1 + k := rfl
@[simp] theorem State.advance_phase (k : Nat) : (s.advance k).phase = s.phase := rfl
@[simp] theorem State.advance_hdrValid (k : Nat) : (s.advance k).hdrValid = s.hdrValid := rfl
@[simp] theorem State.advance_width (k : Nat) : (s.advance k).width = s.width := rfl
@[simp] theorem State.advance_height (k : Nat) : (s.advance k).height = s.height := rfl
@[simp] theorem State.advance_channels (k : Nat) : (s.advance k).channels = s.channels := rfl
@[simp] theorem State.advance_colorspace (k : Nat) : (s.advance k).colorspace = s.colorspace := rfl
@[simp] theorem State.advance_expectedLen (k : Nat) : (s.advance k).expectedLen = s.expectedLen := rfl
@[simp] theorem State.advance_outLen (k : Nat) : (s.advance k).outLen = s.outLen := rfl
@[simp] theorem State.advance_errCode (k : Nat) : (s.advance k).errCode = s.errCode := rfl
@[simp] theorem State.advance_errInfo (k : Nat) : (s.advance k).errInfo = s.errInfo := rfl
@[simp] theorem State.advance_inLen (k : Nat) : (s.advance k).inLen = s.inLen := rfl
@[simp] theorem State.advance_inMem (k : Nat) : (s.advance k).inMem = s.inMem := rfl
@[simp] theorem State.advance_outMem (k : Nat) : (s.advance k).outMem = s.outMem := rfl
@[simp] theorem State.advance_maxOutBytes (k : Nat) : (s.advance k).maxOutBytes = s.maxOutBytes := rfl
@[simp] theorem State.advance_inLenMax (k : Nat) : (s.advance k).inLenMax = s.inLenMax := rfl
@[simp] theorem State.advance_epoch (k : Nat) : (s.advance k).epoch = s.epoch := rfl
@[simp] theorem State.advance_inbox (k : Nat) : (s.advance k).inbox = s.inbox := rfl
@[simp] theorem State.advance_mode (k : Nat) : (s.advance k).mode = s.mode := rfl
@[simp] theorem State.advance_cs (k : Nat) : (s.advance k).cs = s.cs := rfl

/-! ## The common tail (R147) -/

@[simp] theorem State.commonTail_px (n k : Nat) : (s.commonTail n k).px = s.px := rfl
theorem State.commonTail_hist (n k : Nat) :
    (s.commonTail n k).hist = s.hist.set s.hashIndex (s.mode.merge s.px s.hist[s.hashIndex]) := rfl
@[simp] theorem State.commonTail_pos (n k : Nat) : (s.commonTail n k).pos = s.pos + 1 + k := rfl
@[simp] theorem State.commonTail_phase (n k : Nat) : (s.commonTail n k).phase = s.phase := rfl
@[simp] theorem State.commonTail_hdrValid (n k : Nat) : (s.commonTail n k).hdrValid = s.hdrValid := rfl
@[simp] theorem State.commonTail_width (n k : Nat) : (s.commonTail n k).width = s.width := rfl
@[simp] theorem State.commonTail_height (n k : Nat) : (s.commonTail n k).height = s.height := rfl
@[simp] theorem State.commonTail_channels (n k : Nat) : (s.commonTail n k).channels = s.channels := rfl
@[simp] theorem State.commonTail_colorspace (n k : Nat) : (s.commonTail n k).colorspace = s.colorspace := rfl
@[simp] theorem State.commonTail_expectedLen (n k : Nat) : (s.commonTail n k).expectedLen = s.expectedLen := rfl
@[simp] theorem State.commonTail_outLen (n k : Nat) : (s.commonTail n k).outLen = s.outLen + n * s.cs := rfl
@[simp] theorem State.commonTail_errCode (n k : Nat) : (s.commonTail n k).errCode = s.errCode := rfl
@[simp] theorem State.commonTail_errInfo (n k : Nat) : (s.commonTail n k).errInfo = s.errInfo := rfl
@[simp] theorem State.commonTail_inLen (n k : Nat) : (s.commonTail n k).inLen = s.inLen := rfl
@[simp] theorem State.commonTail_inMem (n k : Nat) : (s.commonTail n k).inMem = s.inMem := rfl
@[simp] theorem State.commonTail_outMem (n k : Nat) :
    (s.commonTail n k).outMem = s.outMem.writeBytes s.outLen (repeatedPixel n s.mode s.px) := rfl
@[simp] theorem State.commonTail_maxOutBytes (n k : Nat) : (s.commonTail n k).maxOutBytes = s.maxOutBytes := rfl
@[simp] theorem State.commonTail_inLenMax (n k : Nat) : (s.commonTail n k).inLenMax = s.inLenMax := rfl
@[simp] theorem State.commonTail_epoch (n k : Nat) : (s.commonTail n k).epoch = s.epoch := rfl
@[simp] theorem State.commonTail_inbox (n k : Nat) : (s.commonTail n k).inbox = s.inbox := rfl
@[simp] theorem State.commonTail_mode (n k : Nat) : (s.commonTail n k).mode = s.mode := rfl
@[simp] theorem State.commonTail_cs (n k : Nat) : (s.commonTail n k).cs = s.cs := rfl

/-! ## A byte of `IN` (R37) -/

@[simp] theorem State.writeInput_px (offset : Nat) (b : Byte) : (s.writeInput offset b).px = s.px := rfl
@[simp] theorem State.writeInput_hist (offset : Nat) (b : Byte) : (s.writeInput offset b).hist = s.hist := rfl
@[simp] theorem State.writeInput_pos (offset : Nat) (b : Byte) : (s.writeInput offset b).pos = s.pos := rfl
@[simp] theorem State.writeInput_phase (offset : Nat) (b : Byte) : (s.writeInput offset b).phase = s.phase := rfl
@[simp] theorem State.writeInput_hdrValid (offset : Nat) (b : Byte) :
    (s.writeInput offset b).hdrValid = s.hdrValid := rfl
@[simp] theorem State.writeInput_width (offset : Nat) (b : Byte) : (s.writeInput offset b).width = s.width := rfl
@[simp] theorem State.writeInput_height (offset : Nat) (b : Byte) : (s.writeInput offset b).height = s.height := rfl
@[simp] theorem State.writeInput_channels (offset : Nat) (b : Byte) :
    (s.writeInput offset b).channels = s.channels := rfl
@[simp] theorem State.writeInput_colorspace (offset : Nat) (b : Byte) :
    (s.writeInput offset b).colorspace = s.colorspace := rfl
@[simp] theorem State.writeInput_expectedLen (offset : Nat) (b : Byte) :
    (s.writeInput offset b).expectedLen = s.expectedLen := rfl
@[simp] theorem State.writeInput_outLen (offset : Nat) (b : Byte) : (s.writeInput offset b).outLen = s.outLen := rfl
@[simp] theorem State.writeInput_errCode (offset : Nat) (b : Byte) :
    (s.writeInput offset b).errCode = s.errCode := rfl
@[simp] theorem State.writeInput_errInfo (offset : Nat) (b : Byte) :
    (s.writeInput offset b).errInfo = s.errInfo := rfl
@[simp] theorem State.writeInput_inLen (offset : Nat) (b : Byte) : (s.writeInput offset b).inLen = s.inLen := rfl
@[simp] theorem State.writeInput_inMem (offset : Nat) (b : Byte) :
    (s.writeInput offset b).inMem = s.inMem.write offset b := rfl
@[simp] theorem State.writeInput_outMem (offset : Nat) (b : Byte) : (s.writeInput offset b).outMem = s.outMem := rfl
@[simp] theorem State.writeInput_maxOutBytes (offset : Nat) (b : Byte) :
    (s.writeInput offset b).maxOutBytes = s.maxOutBytes := rfl
@[simp] theorem State.writeInput_inLenMax (offset : Nat) (b : Byte) :
    (s.writeInput offset b).inLenMax = s.inLenMax := rfl
@[simp] theorem State.writeInput_epoch (offset : Nat) (b : Byte) : (s.writeInput offset b).epoch = s.epoch := rfl
@[simp] theorem State.writeInput_inbox (offset : Nat) (b : Byte) : (s.writeInput offset b).inbox = s.inbox := rfl

/-! ## `IN_LEN` (R35) -/

@[simp] theorem State.setInLen_px (n : Nat) : (s.setInLen n).px = s.px := rfl
@[simp] theorem State.setInLen_hist (n : Nat) : (s.setInLen n).hist = s.hist := rfl
@[simp] theorem State.setInLen_pos (n : Nat) : (s.setInLen n).pos = s.pos := rfl
@[simp] theorem State.setInLen_phase (n : Nat) : (s.setInLen n).phase = s.phase := rfl
@[simp] theorem State.setInLen_hdrValid (n : Nat) : (s.setInLen n).hdrValid = s.hdrValid := rfl
@[simp] theorem State.setInLen_width (n : Nat) : (s.setInLen n).width = s.width := rfl
@[simp] theorem State.setInLen_height (n : Nat) : (s.setInLen n).height = s.height := rfl
@[simp] theorem State.setInLen_channels (n : Nat) : (s.setInLen n).channels = s.channels := rfl
@[simp] theorem State.setInLen_colorspace (n : Nat) : (s.setInLen n).colorspace = s.colorspace := rfl
@[simp] theorem State.setInLen_expectedLen (n : Nat) : (s.setInLen n).expectedLen = s.expectedLen := rfl
@[simp] theorem State.setInLen_outLen (n : Nat) : (s.setInLen n).outLen = s.outLen := rfl
@[simp] theorem State.setInLen_errCode (n : Nat) : (s.setInLen n).errCode = s.errCode := rfl
@[simp] theorem State.setInLen_errInfo (n : Nat) : (s.setInLen n).errInfo = s.errInfo := rfl
@[simp] theorem State.setInLen_inLen (n : Nat) : (s.setInLen n).inLen = n := rfl
@[simp] theorem State.setInLen_inMem (n : Nat) : (s.setInLen n).inMem = s.inMem := rfl
@[simp] theorem State.setInLen_outMem (n : Nat) : (s.setInLen n).outMem = s.outMem := rfl
@[simp] theorem State.setInLen_maxOutBytes (n : Nat) : (s.setInLen n).maxOutBytes = s.maxOutBytes := rfl
@[simp] theorem State.setInLen_inLenMax (n : Nat) : (s.setInLen n).inLenMax = s.inLenMax := rfl
@[simp] theorem State.setInLen_epoch (n : Nat) : (s.setInLen n).epoch = s.epoch := rfl
@[simp] theorem State.setInLen_inbox (n : Nat) : (s.setInLen n).inbox = s.inbox := rfl

/-! ## Publishing a header (40_header.md R120) -/

@[simp] theorem State.publishHeader_px (w h : U32) (c col : Byte) : (s.publishHeader w h c col).px = s.px := rfl
@[simp] theorem State.publishHeader_hist (w h : U32) (c col : Byte) : (s.publishHeader w h c col).hist = s.hist := rfl
@[simp] theorem State.publishHeader_pos (w h : U32) (c col : Byte) : (s.publishHeader w h c col).pos = s.pos := rfl
@[simp] theorem State.publishHeader_phase (w h : U32) (c col : Byte) :
    (s.publishHeader w h c col).phase = s.phase := rfl
@[simp] theorem State.publishHeader_hdrValid (w h : U32) (c col : Byte) :
    (s.publishHeader w h c col).hdrValid = true := rfl
@[simp] theorem State.publishHeader_width (w h : U32) (c col : Byte) : (s.publishHeader w h c col).width = w := rfl
@[simp] theorem State.publishHeader_height (w h : U32) (c col : Byte) : (s.publishHeader w h c col).height = h := rfl
@[simp] theorem State.publishHeader_channels (w h : U32) (c col : Byte) :
    (s.publishHeader w h c col).channels = c := rfl
@[simp] theorem State.publishHeader_colorspace (w h : U32) (c col : Byte) :
    (s.publishHeader w h c col).colorspace = col := rfl
@[simp] theorem State.publishHeader_expectedLen (w h : U32) (c col : Byte) :
    (s.publishHeader w h c col).expectedLen = headerProduct w h c := rfl
@[simp] theorem State.publishHeader_outLen (w h : U32) (c col : Byte) :
    (s.publishHeader w h c col).outLen = s.outLen := rfl
@[simp] theorem State.publishHeader_errCode (w h : U32) (c col : Byte) :
    (s.publishHeader w h c col).errCode = s.errCode := rfl
@[simp] theorem State.publishHeader_errInfo (w h : U32) (c col : Byte) :
    (s.publishHeader w h c col).errInfo = s.errInfo := rfl
@[simp] theorem State.publishHeader_inLen (w h : U32) (c col : Byte) :
    (s.publishHeader w h c col).inLen = s.inLen := rfl
@[simp] theorem State.publishHeader_inMem (w h : U32) (c col : Byte) :
    (s.publishHeader w h c col).inMem = s.inMem := rfl
@[simp] theorem State.publishHeader_outMem (w h : U32) (c col : Byte) :
    (s.publishHeader w h c col).outMem = s.outMem := rfl
@[simp] theorem State.publishHeader_maxOutBytes (w h : U32) (c col : Byte) :
    (s.publishHeader w h c col).maxOutBytes = s.maxOutBytes := rfl
@[simp] theorem State.publishHeader_inLenMax (w h : U32) (c col : Byte) :
    (s.publishHeader w h c col).inLenMax = s.inLenMax := rfl
@[simp] theorem State.publishHeader_epoch (w h : U32) (c col : Byte) :
    (s.publishHeader w h c col).epoch = s.epoch := rfl
@[simp] theorem State.publishHeader_inbox (w h : U32) (c col : Byte) :
    (s.publishHeader w h c col).inbox = s.inbox := rfl

/-! ## The end of the header step (R128) -/

@[simp] theorem State.enterBody_px : s.enterBody.px = s.px := rfl
@[simp] theorem State.enterBody_hist : s.enterBody.hist = s.hist := rfl
@[simp] theorem State.enterBody_pos : s.enterBody.pos = 14 := rfl
@[simp] theorem State.enterBody_phase : s.enterBody.phase = .body := rfl
@[simp] theorem State.enterBody_hdrValid : s.enterBody.hdrValid = s.hdrValid := rfl
@[simp] theorem State.enterBody_width : s.enterBody.width = s.width := rfl
@[simp] theorem State.enterBody_height : s.enterBody.height = s.height := rfl
@[simp] theorem State.enterBody_channels : s.enterBody.channels = s.channels := rfl
@[simp] theorem State.enterBody_colorspace : s.enterBody.colorspace = s.colorspace := rfl
@[simp] theorem State.enterBody_expectedLen : s.enterBody.expectedLen = s.expectedLen := rfl
@[simp] theorem State.enterBody_outLen : s.enterBody.outLen = s.outLen := rfl
@[simp] theorem State.enterBody_errCode : s.enterBody.errCode = s.errCode := rfl
@[simp] theorem State.enterBody_errInfo : s.enterBody.errInfo = s.errInfo := rfl
@[simp] theorem State.enterBody_inLen : s.enterBody.inLen = s.inLen := rfl
@[simp] theorem State.enterBody_inMem : s.enterBody.inMem = s.inMem := rfl
@[simp] theorem State.enterBody_outMem : s.enterBody.outMem = s.outMem := rfl
@[simp] theorem State.enterBody_maxOutBytes : s.enterBody.maxOutBytes = s.maxOutBytes := rfl
@[simp] theorem State.enterBody_inLenMax : s.enterBody.inLenMax = s.inLenMax := rfl
@[simp] theorem State.enterBody_epoch : s.enterBody.epoch = s.epoch := rfl
@[simp] theorem State.enterBody_inbox : s.enterBody.inbox = s.inbox := rfl
@[simp] theorem State.enterBody_mode : s.enterBody.mode = s.mode := rfl
@[simp] theorem State.enterBody_cs : s.enterBody.cs = s.cs := rfl

/-! ## Taking an error (60_exceptions.md R218) -/

@[simp] theorem State.raise_px (e : DecodeError) (info : Byte) : (s.raise e info).px = s.px := rfl
@[simp] theorem State.raise_hist (e : DecodeError) (info : Byte) : (s.raise e info).hist = s.hist := rfl
@[simp] theorem State.raise_pos (e : DecodeError) (info : Byte) : (s.raise e info).pos = s.pos := rfl
@[simp] theorem State.raise_phase (e : DecodeError) (info : Byte) : (s.raise e info).phase = .error := rfl
@[simp] theorem State.raise_hdrValid (e : DecodeError) (info : Byte) : (s.raise e info).hdrValid = s.hdrValid := rfl
@[simp] theorem State.raise_width (e : DecodeError) (info : Byte) : (s.raise e info).width = s.width := rfl
@[simp] theorem State.raise_height (e : DecodeError) (info : Byte) : (s.raise e info).height = s.height := rfl
@[simp] theorem State.raise_channels (e : DecodeError) (info : Byte) : (s.raise e info).channels = s.channels := rfl
@[simp] theorem State.raise_colorspace (e : DecodeError) (info : Byte) :
    (s.raise e info).colorspace = s.colorspace := rfl
@[simp] theorem State.raise_expectedLen (e : DecodeError) (info : Byte) :
    (s.raise e info).expectedLen = s.expectedLen := rfl
@[simp] theorem State.raise_outLen (e : DecodeError) (info : Byte) : (s.raise e info).outLen = s.outLen := rfl
@[simp] theorem State.raise_errCode (e : DecodeError) (info : Byte) : (s.raise e info).errCode = some e := rfl
@[simp] theorem State.raise_errInfo (e : DecodeError) (info : Byte) :
    (s.raise e info).errInfo = if e = .invalidChannels then info else 0 := rfl
@[simp] theorem State.raise_inLen (e : DecodeError) (info : Byte) : (s.raise e info).inLen = s.inLen := rfl
@[simp] theorem State.raise_inMem (e : DecodeError) (info : Byte) : (s.raise e info).inMem = s.inMem := rfl
@[simp] theorem State.raise_outMem (e : DecodeError) (info : Byte) : (s.raise e info).outMem = s.outMem := rfl
@[simp] theorem State.raise_maxOutBytes (e : DecodeError) (info : Byte) :
    (s.raise e info).maxOutBytes = s.maxOutBytes := rfl
@[simp] theorem State.raise_inLenMax (e : DecodeError) (info : Byte) : (s.raise e info).inLenMax = s.inLenMax := rfl
@[simp] theorem State.raise_epoch (e : DecodeError) (info : Byte) : (s.raise e info).epoch = s.epoch := rfl
@[simp] theorem State.raise_inbox (e : DecodeError) (info : Byte) : (s.raise e info).inbox = s.inbox := rfl
@[simp] theorem State.raise_mode (e : DecodeError) (info : Byte) : (s.raise e info).mode = s.mode := rfl
@[simp] theorem State.raise_cs (e : DecodeError) (info : Byte) : (s.raise e info).cs = s.cs := rfl

/-! ## START (10_state.md R41) -/

@[simp] theorem State.startDecode_px : s.startDecode.px = Pixel.opaqueBlack := rfl
@[simp] theorem State.startDecode_hist : s.startDecode.hist = Vector.replicate 64 Pixel.zero := rfl
@[simp] theorem State.startDecode_pos : s.startDecode.pos = 0 := rfl
@[simp] theorem State.startDecode_phase : s.startDecode.phase = .header := rfl
@[simp] theorem State.startDecode_hdrValid : s.startDecode.hdrValid = false := rfl
@[simp] theorem State.startDecode_width : s.startDecode.width = 0 := rfl
@[simp] theorem State.startDecode_height : s.startDecode.height = 0 := rfl
@[simp] theorem State.startDecode_channels : s.startDecode.channels = 0 := rfl
@[simp] theorem State.startDecode_colorspace : s.startDecode.colorspace = 0 := rfl
@[simp] theorem State.startDecode_expectedLen : s.startDecode.expectedLen = 0 := rfl
@[simp] theorem State.startDecode_outLen : s.startDecode.outLen = 0 := rfl
@[simp] theorem State.startDecode_errCode : s.startDecode.errCode = none := rfl
@[simp] theorem State.startDecode_errInfo : s.startDecode.errInfo = 0 := rfl
@[simp] theorem State.startDecode_inLen : s.startDecode.inLen = s.inLen := rfl
@[simp] theorem State.startDecode_inMem : s.startDecode.inMem = s.inMem := rfl
@[simp] theorem State.startDecode_outMem : s.startDecode.outMem = [] := rfl
@[simp] theorem State.startDecode_maxOutBytes : s.startDecode.maxOutBytes = s.maxOutBytes := rfl
@[simp] theorem State.startDecode_inLenMax : s.startDecode.inLenMax = s.inLenMax := rfl
@[simp] theorem State.startDecode_epoch : s.startDecode.epoch = s.epoch + 1 := rfl
@[simp] theorem State.startDecode_inbox : s.startDecode.inbox = s.inbox := rfl

/-! ## Power-on reset (R42) -/

@[simp] theorem State.powerOn_px : s.powerOn.px = Pixel.zero := rfl
@[simp] theorem State.powerOn_hist : s.powerOn.hist = Vector.replicate 64 Pixel.zero := rfl
@[simp] theorem State.powerOn_pos : s.powerOn.pos = 0 := rfl
@[simp] theorem State.powerOn_phase : s.powerOn.phase = .idle := rfl
@[simp] theorem State.powerOn_hdrValid : s.powerOn.hdrValid = false := rfl
@[simp] theorem State.powerOn_width : s.powerOn.width = 0 := rfl
@[simp] theorem State.powerOn_height : s.powerOn.height = 0 := rfl
@[simp] theorem State.powerOn_channels : s.powerOn.channels = 0 := rfl
@[simp] theorem State.powerOn_colorspace : s.powerOn.colorspace = 0 := rfl
@[simp] theorem State.powerOn_expectedLen : s.powerOn.expectedLen = 0 := rfl
@[simp] theorem State.powerOn_outLen : s.powerOn.outLen = 0 := rfl
@[simp] theorem State.powerOn_errCode : s.powerOn.errCode = none := rfl
@[simp] theorem State.powerOn_errInfo : s.powerOn.errInfo = 0 := rfl
@[simp] theorem State.powerOn_inLen : s.powerOn.inLen = 0 := rfl
@[simp] theorem State.powerOn_inMem : s.powerOn.inMem = [] := rfl
@[simp] theorem State.powerOn_outMem : s.powerOn.outMem = [] := rfl
@[simp] theorem State.powerOn_maxOutBytes : s.powerOn.maxOutBytes = s.maxOutBytes := rfl
@[simp] theorem State.powerOn_inLenMax : s.powerOn.inLenMax = s.inLenMax := rfl
@[simp] theorem State.powerOn_epoch : s.powerOn.epoch = s.epoch := rfl
@[simp] theorem State.powerOn_inbox : s.powerOn.inbox = s.inbox := rfl

end Sys2Proof.Machine
end

