-- ==== Sys2Proof/Laws/Ops.lean ====
section
/-! SUPPORT. One lemma for what each shared operation does: the mode, the hash, the bytes of a pixel, START. -/

namespace Sys2Proof.Machine

/-! ## The mode (10_state.md R31) -/

theorem modeOf_four : modeOf 4 = .rgba := rfl

theorem modeOf_three : modeOf 3 = .rgb := rfl

theorem State.mode_rgba {s : State} (h : s.channels = 4) : s.mode = .rgba := by
  rw [State.mode, h]; rfl

theorem State.mode_rgb {s : State} (h : s.channels ≠ 4) : s.mode = .rgb := by
  rw [State.mode, modeOf, if_neg h]

theorem State.cs_rgba {s : State} (h : s.channels = 4) : s.cs = 4 := by
  rw [State.cs, State.mode_rgba h]; rfl

theorem State.cs_rgb {s : State} (h : s.channels ≠ 4) : s.cs = 3 := by
  rw [State.cs, State.mode_rgb h]; rfl

theorem Mode.size_pos (m : Mode) : 0 < m.size := by cases m <;> decide

/-! ## Lane writes (R21, R26) -/

@[simp] theorem Mode.merge_rgba (p q : Pixel) : Mode.rgba.merge p q = p := rfl

@[simp] theorem Mode.merge_rgb (p q : Pixel) : Mode.rgb.merge p q = ⟨p.r, p.g, p.b, q.a⟩ := rfl

@[simp] theorem Mode.merge_self (m : Mode) (p : Pixel) : m.merge p p = p := by cases m <;> rfl

@[simp] theorem State.setPx_self (s : State) : s.setPx s.px = s := by
  simp [State.setPx]

/-! ## Deltas are signed numbers modulo 256 (30_encoding.md R96 to R98) -/

theorem diffDelta_eq_ofInt (f : BitVec 2) : diffDelta f = BitVec.ofInt 8 (f.toNat - 2) := by
  revert f; decide

theorem lumaGreen_eq_ofInt (gf : BitVec 6) : lumaGreen gf = BitVec.ofInt 8 (gf.toNat - 32) := by
  revert gf; decide

theorem lumaChroma_eq_ofInt (f : BitVec 4) (gf : BitVec 6) :
    lumaChroma f (lumaGreen gf) = BitVec.ofInt 8 (f.toNat - 8 + (gf.toNat - 32)) := by
  have hf : f.setWidth 8 - 8 = BitVec.ofInt 8 ((f.toNat : Int) - 8) := by revert f; decide
  rw [BitVec.ofInt_add, ← lumaGreen_eq_ofInt, ← hf, lumaChroma]

theorem add_ofInt (x : Byte) (n : Int) : x + BitVec.ofInt 8 n = BitVec.ofInt 8 (x.toNat + n) := by
  rw [BitVec.ofInt_add]
  congr 1
  simp

/-! ## The hash (41_operator_step.md R148) -/

theorem pixelHash_val (m : Mode) (p : Pixel) :
    (pixelHash m p).val = (p.r.toNat * 3 + p.g.toNat * 5 + p.b.toNat * 7 + m.hashAlpha p * 11) % 64 := rfl

/-- The hash sees no a lane in RGB mode, and every lane it sees in RGBA mode survives a lane write. -/
theorem pixelHash_merge (m : Mode) (p q : Pixel) : pixelHash m (m.merge p q) = pixelHash m p := by
  cases m <;> rfl

/-! ## The index store (R149) -/

theorem hist_set_entry (v : Vector Pixel 64) (i j : Fin 64) (p : Pixel) :
    (v.set i p)[j] = if j = i then p else v[j] := by
  by_cases h : j = i
  · subst h
    simp
  · rw [if_neg h]
    exact Vector.getElem_set_ne _ _ fun heq => h (Fin.ext heq.symm)

@[simp] theorem State.storeHist_entry (s : State) (j : Fin 64) :
    s.storeHist.hist[j] = if j = s.hashIndex then s.mode.merge s.px s.hist[j] else s.hist[j] := by
  rw [State.storeHist_hist, hist_set_entry]
  split
  · rename_i h
    rw [h]
  · rfl

@[simp] theorem State.commonTail_entry (s : State) (n k : Nat) (j : Fin 64) :
    (s.commonTail n k).hist[j] = if j = s.hashIndex then s.mode.merge s.px s.hist[j] else s.hist[j] :=
  s.storeHist_entry j

theorem State.setPx_hashIndex (s : State) (p : Pixel) : (s.setPx p).hashIndex = pixelHash s.mode p :=
  pixelHash_merge s.mode p s.px

/-- Two indexes with the same entries are equal. -/
theorem hist_ext {v w : Vector Pixel 64} (h : ∀ j : Fin 64, v[j] = w[j]) : v = w :=
  Vector.ext fun j hj => h ⟨j, hj⟩

/-! ## The bytes of pixels (R150, 20_memory.md R62) -/

@[simp] theorem pixelBytes_length (m : Mode) (p : Pixel) : (pixelBytes m p).length = m.size := by
  cases m <;> rfl

@[simp] theorem repeatedPixel_length (n : Nat) (m : Mode) (p : Pixel) : (repeatedPixel n m p).length = n * m.size := by
  simp [repeatedPixel]

theorem repeatedPixel_succ (n : Nat) (m : Mode) (p : Pixel) :
    repeatedPixel (n + 1) m p = pixelBytes m p ++ repeatedPixel n m p := by
  simp [repeatedPixel, List.replicate_succ]

/-- Byte `j` of a repeated pixel is lane `j mod cs` of the pixel. -/
theorem repeatedPixel_getElem? (n : Nat) (m : Mode) (p : Pixel) {j : Nat} (h : j < n * m.size) :
    (repeatedPixel n m p)[j]? = (pixelBytes m p)[j % m.size]? := by
  induction n generalizing j with
  | zero => simp at h
  | succ n ih =>
    rw [repeatedPixel_succ]
    by_cases hj : j < m.size
    · rw [List.getElem?_append_left (by simpa using hj), Nat.mod_eq_of_lt hj]
    · have hs : m.size ≤ j := by omega
      rw [List.getElem?_append_right (by simpa using hs), pixelBytes_length, ih, Nat.mod_eq_sub_mod hs]
      rw [Nat.add_mul, Nat.one_mul] at h
      omega

/-! ## START and power-on reset (R41, R42) -/

theorem State.start_quiescent {s : State} (h : s.phase.isQuiescent = true) : s.start = s.startDecode := by
  rw [State.start, if_pos h]

theorem State.start_busy {s : State} (h : s.phase.isQuiescent = false) : s.start = s := by
  rw [State.start, if_neg (by simp [h])]

theorem Phase.isQuiescent_false {p : Phase} : p.isQuiescent = false ↔ p = .header ∨ p = .body := by
  cases p <;> simp [Phase.isQuiescent]

theorem Phase.isQuiescent_true {p : Phase} : p.isQuiescent = true ↔ p = .idle ∨ p = .done ∨ p = .error := by
  cases p <;> simp [Phase.isQuiescent]

end Sys2Proof.Machine
end

