-- ==== Sys2Proof/Laws/Fetch.lean ====
section
/-! SUPPORT. The bytes a step reads (20_memory.md R65). -/

namespace Sys2Proof.Machine

@[simp] theorem State.inBytes_length (s : State) (a n : Nat) : (s.inBytes a n).length = n := by
  simp [State.inBytes]

theorem State.inBytes_getElem? (s : State) {a n j : Nat} (h : j < n) : (s.inBytes a n)[j]? = some (s.inByte (a + j)) := by
  simp [State.inBytes, h]

/-- A listed byte of `IN` is what the host wrote (R70). -/
theorem State.inByte_listed {s : State} {a : Nat} {b : Byte} (h : s.inMem.read a = some b) : s.inByte a = b := by
  simp [State.inByte, h]

/-- Reads of the same bytes give the same window. -/
theorem State.inBytes_congr {s t : State} {a n : Nat} (h : ∀ j < n, s.inByte (a + j) = t.inByte (a + j)) :
    s.inBytes a n = t.inBytes a n := by
  simpa [State.inBytes] using h

@[simp] theorem State.headerWindow_length (s : State) : s.headerWindow.length = min 14 s.inLen := by
  simp [State.headerWindow]

@[simp] theorem State.streamWindow_length (s : State) : s.streamWindow.length = min 8 (s.inLen - s.pos) := by
  simp [State.streamWindow]

theorem State.streamWindow_empty {s : State} (h : s.inLen ≤ s.pos) : s.streamWindow = [] := by
  apply List.eq_nil_of_length_eq_zero
  simp
  omega

/-- The first byte of a window that is not empty is the tag byte `IN[POS]`. -/
theorem State.streamWindow_cons {s : State} (h : s.pos < s.inLen) :
    ∃ rest, s.streamWindow = s.inByte s.pos :: rest ∧ rest.length = min 8 (s.inLen - s.pos) - 1 := by
  have hlen := s.streamWindow_length
  have hfirst := s.inBytes_getElem? (a := s.pos) (n := min 8 (s.inLen - s.pos)) (j := 0) (by omega)
  cases hw : s.streamWindow with
  | nil => rw [hw] at hlen; simp at hlen; omega
  | cons b rest =>
    have hb : b = s.inByte s.pos := by
      have : s.streamWindow[0]? = some (s.inByte s.pos) := by simpa [State.streamWindow] using hfirst
      simpa [hw] using this
    refine ⟨rest, by rw [hb], ?_⟩
    rw [hw] at hlen
    simp at hlen
    omega

theorem State.fetch_header {s : State} (h : s.phase = .header) : s.fetch = decodeHeader s.headerWindow := by
  rw [State.fetch, h]

theorem State.fetch_body {s : State} (h : s.phase = .body) : s.fetch = decodeOperator s.streamWindow := by
  rw [State.fetch, h]

end Sys2Proof.Machine
end

