-- ==== Sys2Proof/Laws/PerInstr.lean ====
section
/-! SUPPORT. Statements made constructor by constructor. `EncodedLength`: every encoding has the length column of
30_encoding.md R90, and is not empty. -/

namespace Sys2Proof.Laws.EncodedLength

/-- The encoding of `i` has the length R90 gives it. -/
def Statement (i : Instr) : Prop := (encode i).length = i.length ∧ 1 ≤ i.length

theorem hdr (w h : U32) (c s : Byte) : Statement (.hdr w h c s) := ⟨encode_length _, Instr.length_pos _⟩

theorem endMarker : Statement .endMarker := ⟨encode_length _, Instr.length_pos _⟩

theorem rgb (r g b : Byte) : Statement (.rgb r g b) := ⟨encode_length _, Instr.length_pos _⟩

theorem rgba (r g b a : Byte) : Statement (.rgba r g b a) := ⟨encode_length _, Instr.length_pos _⟩

theorem index (i : BitVec 6) : Statement (.index i) := ⟨encode_length _, Instr.length_pos _⟩

theorem diff (rf gf bf : BitVec 2) : Statement (.diff rf gf bf) := ⟨encode_length _, Instr.length_pos _⟩

theorem luma (gf : BitVec 6) (rf bf : BitVec 4) : Statement (.luma gf rf bf) :=
  ⟨encode_length _, Instr.length_pos _⟩

theorem run (l : BitVec 6) : Statement (.run l) := ⟨encode_length _, Instr.length_pos _⟩

end Sys2Proof.Laws.EncodedLength
end

