-- ==== Sys2Proof/Laws/Step.lean ====
section
/-! SUPPORT. What a step can do, said once: each meaning's shape, the block's step by phase, and the host's moves. -/

namespace Sys2Proof.Machine

/-! ## The meanings -/

theorem exec_index (i : BitVec 6) (s : State) :
    exec (.index i) s = .next ((s.setPx s.hist[entryNumber i]).commonTail 1 0) := rfl

theorem exec_diff (rf gf bf : BitVec 2) (s : State) : exec (.diff rf gf bf) s =
    .next ((s.setPx (addDeltas (diffDelta rf) (diffDelta gf) (diffDelta bf) s.px)).commonTail 1 0) := rfl

theorem exec_luma (gf : BitVec 6) (rf bf : BitVec 4) (s : State) : exec (.luma gf rf bf) s =
    .next ((s.setPx (addDeltas (lumaChroma rf (lumaGreen gf)) (lumaGreen gf) (lumaChroma bf (lumaGreen gf))
      s.px)).commonTail 1 1) := rfl

theorem exec_rgb (r g b : Byte) (s : State) :
    exec (.rgb r g b) s = .next ((s.setPx ⟨r, g, b, s.px.a⟩).commonTail 1 3) := rfl

theorem exec_rgba (r g b a : Byte) (s : State) :
    exec (.rgba r g b a) s = .next ((s.setPx ⟨r, g, b, a⟩).commonTail 1 4) := rfl

theorem exec_run (l : BitVec 6) (s : State) :
    exec (.run l) s = .next ((s.setPx s.px).commonTail (l.toNat + 1) 0) := by
  rw [State.setPx_self]; rfl

theorem exec_endMarker (s : State) : exec .endMarker s =
    if s.outLen ≠ s.expectedLen then .next (s.raise .sizeMismatch 0) else .next (s.setPhase .done) := rfl

theorem exec_hdr (w h : U32) (c col : Byte) (s : State) : exec (.hdr w h c col) s =
    if c ≠ 3 ∧ c ≠ 4 then .next (s.raise .invalidChannels c)
    else if headerProduct w h c > s.maxOutBytes then .next ((s.publishHeader w h c col).raise .dimensionsTooLarge 0)
    else .next ((s.publishHeader w h c col).enterBody) := rfl

/-- A decoded operator is END or a pixel operator of 1 to 62 pixels and at most 4 operand bytes. -/
theorem exec_operator {bs : List Byte} {i : Instr} (hi : decodeOperator bs = .instr i) (s : State) :
    (bs.take 8 = endMarkerBytes ∧ i = .endMarker) ∨
      (bs.take 8 ≠ endMarkerBytes ∧ ∃ p n k, exec i s = .next ((s.setPx p).commonTail n k) ∧
        1 ≤ n ∧ n ≤ 62 ∧ 1 + k ≤ bs.length ∧ k ≤ 4) := by
  rcases decodeOperator_cases hi with h | ⟨hm, op, xs, rfl, hd⟩
  · exact .inl h
  · refine .inr ⟨hm, ?_⟩
    rcases decodeTag_cases hd with ⟨_, rfl⟩ | ⟨_, rfl⟩ | ⟨_, _, _, rfl, rfl⟩ | ⟨_, _, _, _, _, rfl, rfl⟩ |
      ⟨_, _, _, _, _, _, rfl, rfl⟩ | ⟨_, hl, rfl⟩
    · exact ⟨_, 1, 0, exec_index _ s, by omega, by omega, by simp, by omega⟩
    · exact ⟨_, 1, 0, exec_diff _ _ _ s, by omega, by omega, by simp, by omega⟩
    · exact ⟨_, 1, 1, exec_luma _ _ _ s, by omega, by omega, by simp, by omega⟩
    · exact ⟨_, 1, 3, exec_rgb _ _ _ s, by omega, by omega, by simp, by omega⟩
    · exact ⟨_, 1, 4, exec_rgba _ _ _ _ s, by omega, by omega, by simp, by omega⟩
    · exact ⟨_, _, 0, exec_run _ s, by omega, by omega, by simp, by omega⟩

/-! ## The block's step -/

@[simp] theorem runDecoded_instr (i : Instr) (s : State) : runDecoded (.instr i) s = exec i s := rfl

@[simp] theorem runDecoded_reject (r : DecodeReject) (s : State) :
    runDecoded (.reject r) s = .next (s.raise (rejectError r) 0) := rfl

theorem blockStep_quiescent {s : State} (h : s.phase.isQuiescent = true) : blockStep s = .fault .quiescent := by
  rw [blockStep, if_pos h]

theorem blockStep_header {s : State} (h : s.phase = .header) : 
    blockStep s = runDecoded (decodeHeader s.headerWindow) s := by
  rw [blockStep, if_neg (by simp [h, Phase.isQuiescent]), State.fetch_header h]

theorem blockStep_body {s : State} (h : s.phase = .body) : 
    blockStep s = runDecoded (decodeOperator s.streamWindow) s := by
  rw [blockStep, if_neg (by simp [h, Phase.isQuiescent]), State.fetch_body h]

/-- The header step leaves one of five states (40_header.md R120). -/
theorem headerStep_cases {s t : State} (hp : s.phase = .header) (h : blockStep s = .next t) :
    t = s.raise .tooShort 0 ∨ t = s.raise .badMagic 0 ∨
      ∃ w h c col, decodeHeader s.headerWindow = .instr (.hdr w h c col) ∧
        ((c ≠ 3 ∧ c ≠ 4 ∧ t = s.raise .invalidChannels c) ∨
          ((c = 3 ∨ c = 4) ∧ s.maxOutBytes < headerProduct w h c ∧
            t = (s.publishHeader w h c col).raise .dimensionsTooLarge 0) ∨
          ((c = 3 ∨ c = 4) ∧ headerProduct w h c ≤ s.maxOutBytes ∧ 14 ≤ s.inLen ∧
            t = (s.publishHeader w h c col).enterBody)) := by
  rw [blockStep_header hp] at h
  rcases decodeHeader_cases s.headerWindow with ⟨hd, _⟩ | ⟨hd, _⟩ | ⟨w, ht, c, col, hd, hlen, _⟩
  · rw [hd] at h
    exact .inl (by simpa [rejectError] using h.symm)
  · rw [hd] at h
    exact .inr (.inl (by simpa [rejectError] using h.symm))
  · refine .inr (.inr ⟨w, ht, c, col, hd, ?_⟩)
    have hin : 14 ≤ s.inLen := by
      rw [State.headerWindow_length] at hlen
      omega
    rw [hd] at h
    rw [runDecoded_instr, exec_hdr] at h
    split at h
    · rename_i hc
      exact .inl ⟨hc.1, hc.2, by simpa using h.symm⟩
    · rename_i hc
      have hc' : c = 3 ∨ c = 4 := by tauto
      split at h
      · exact .inr (.inl ⟨hc', by omega, by simpa using h.symm⟩)
      · exact .inr (.inr ⟨hc', by omega, hin, by simpa using h.symm⟩)

/-- The operator step leaves one of five states (41_operator_step.md R140): a pixel operator's, END's two, and the two
stream errors'. -/
theorem operatorStep_cases {s t : State} (hp : s.phase = .body) (h : blockStep s = .next t) :
    (∃ p n k, t = (s.setPx p).commonTail n k ∧ 1 ≤ n ∧ n ≤ 62 ∧ k ≤ 4 ∧ s.pos + 1 + k ≤ s.inLen) ∨
      (s.streamWindow = endMarkerBytes ∧
        ((s.outLen = s.expectedLen ∧ t = s.setPhase .done) ∨
          (s.outLen ≠ s.expectedLen ∧ t = s.raise .sizeMismatch 0))) ∨
      (s.inLen ≤ s.pos ∧ t = s.raise .unterminatedStream 0) ∨
      (s.pos < s.inLen ∧ t = s.raise .truncatedOperatorStream 0) := by
  rw [blockStep_body hp] at h
  cases hd : decodeOperator s.streamWindow with
  | instr i =>
    rw [hd] at h
    rcases exec_operator hd s with ⟨htake, rfl⟩ | ⟨_, p, n, k, he, hn, hn', hk, hk'⟩
    · refine .inr (.inl ⟨?_, ?_⟩)
      · have hlen := s.streamWindow_length
        rwa [List.take_of_length_le (by omega)] at htake
      · rw [runDecoded_instr, exec_endMarker] at h
        split at h
        · exact .inr ⟨‹_›, by simpa using h.symm⟩
        · exact .inl ⟨not_not.1 ‹_›, by simpa using h.symm⟩
    · refine .inl ⟨p, n, k, ?_, hn, hn', hk', ?_⟩
      · rw [runDecoded_instr, he, Host.Outcome.next.injEq] at h
        exact h.symm
      · rw [State.streamWindow_length] at hk
        omega
  | reject r =>
    rw [hd, runDecoded_reject, Host.Outcome.next.injEq] at h
    rcases decodeOperator_reject hd with ⟨hw, rfl⟩ | ⟨op, xs, hw, _, rfl⟩
    · refine .inr (.inr (.inl ⟨?_, h.symm⟩))
      have hlen := s.streamWindow_length
      rw [hw] at hlen
      simp at hlen
      omega
    · refine .inr (.inr (.inr ⟨?_, h.symm⟩))
      by_contra hle
      rw [State.streamWindow_empty (by omega)] at hw
      simp at hw

/-! ## The host's moves -/

theorem hostMove_writeIn {s : State} {a : Nat} (b : Byte) (hq : s.phase.isQuiescent = true)
    (ha : s.inLenAllowed (a + 1) = true) : hostMove (.writeIn a b) s = .next (s.writeInput a b) := by
  rw [hostMove, hostWriteIn, if_pos hq, if_pos ha]

theorem hostMove_writeInLen {s : State} {n : Nat} (hq : s.phase.isQuiescent = true) (hn : s.inLenAllowed n = true) :
    hostMove (.writeReg .inLen n) s = .next (s.setInLen n) := by
  rw [hostMove, hostWriteReg, hostWriteInLen, if_pos hq, if_pos hn]

theorem hostMove_writeIn_busy {s : State} (a : Nat) (b : Byte) (hq : s.phase.isQuiescent = false) :
    hostMove (.writeIn a b) s = .refused .hostWroteDuringDecode := by
  rw [hostMove, hostWriteIn, if_neg (by simp [hq])]

theorem hostMove_writeInLen_busy {s : State} (n : Nat) (hq : s.phase.isQuiescent = false) :
    hostMove (.writeReg .inLen n) s = .refused .hostWroteDuringDecode := by
  rw [hostMove, hostWriteReg, hostWriteInLen, if_neg (by simp [hq])]

/-- `CTRL`: bit 0 is START (R35). -/
theorem hostMove_ctrl (s : State) (v : Nat) :
    hostMove (.writeReg .ctrl v) s = .next (if v % 2 = 1 then s.start else s) := by
  rw [hostMove, hostWriteReg, hostWriteCtrl]
  split <;> rfl

/-- A write to a read-only register has no effect (R36). -/
theorem hostMove_readOnly (s : State) {r : Reg} (v : Nat) (h1 : r ≠ .ctrl) (h2 : r ≠ .inLen) :
    hostMove (.writeReg r v) s = .next s := by
  cases r <;> first | rfl | contradiction

/-- What a host move leaves, if it is not refused. -/
theorem hostMove_cases {m : HostMove} {s t : State} (h : hostMove m s = .next t) :
    t = s ∨ (t = s.startDecode ∧ s.phase.isQuiescent = true) ∨ t = s.powerOn ∨
      (s.phase.isQuiescent = true ∧ ∃ a b, t = s.writeInput a b) ∨
      (s.phase.isQuiescent = true ∧ ∃ n, t = s.setInLen n) := by
  cases m with
  | wait => exact .inl (by simpa [hostMove] using h.symm)
  | powerOn => exact .inr (.inr (.inl (by simpa [hostMove] using h.symm)))
  | writeIn a b =>
    simp only [hostMove, hostWriteIn] at h
    split at h
    · split at h
      · exact .inr (.inr (.inr (.inl ⟨‹_›, a, b, by simpa using h.symm⟩)))
      · simp at h
    · simp at h
  | writeReg r v =>
    cases r with
    | ctrl =>
      simp only [hostMove, hostWriteReg, hostWriteCtrl] at h
      split at h
      · cases hq : s.phase.isQuiescent with
        | true =>
          rw [State.start_quiescent hq] at h
          exact .inr (.inl ⟨by simpa using h.symm, rfl⟩)
        | false =>
          rw [State.start_busy hq] at h
          exact .inl (by simpa using h.symm)
      · exact .inl (by simpa using h.symm)
    | inLen =>
      simp only [hostMove, hostWriteReg, hostWriteInLen] at h
      split at h
      · split at h
        · exact .inr (.inr (.inr (.inr ⟨‹_›, v, by simpa using h.symm⟩)))
        · simp at h
      · simp at h
    | _ => exact .inl (by simpa [hostMove, hostWriteReg] using h.symm)

/-! ## The whole step -/

theorem step_inbox_nil {s : State} (h : s.inbox = []) : step s = blockStep s := by
  rw [step, h]

theorem step_wait {s : State} {moves : List HostMove} (h : s.inbox = .wait :: moves) :
    step s = waitStep (s.setInbox moves) := by
  rw [step, h]

theorem step_move {s : State} {m : HostMove} {moves : List HostMove} (h : s.inbox = m :: moves) (hm : m ≠ .wait) :
    step s = hostMove m (s.setInbox moves) := by
  rw [step, h]
  cases m <;> first | rfl | exact absurd rfl hm

/-- Every step is the block's, or a host move's, from the state with the consumed move dropped. -/
theorem step_cases {s t : State} (h : step s = .next t) :
    ∃ moves, blockStep (s.setInbox moves) = .next t ∨ ∃ m, hostMove m (s.setInbox moves) = .next t := by
  cases hi : s.inbox with
  | nil =>
    refine ⟨[], .inl ?_⟩
    have hs : s.setInbox [] = s := by rw [State.setInbox, ← hi]
    rw [hs, ← step_inbox_nil hi]
    exact h
  | cons m moves =>
    refine ⟨moves, ?_⟩
    by_cases hm : m = .wait
    · subst hm
      rw [step_wait hi, waitStep] at h
      split at h
      · exact .inr ⟨.wait, h⟩
      · exact .inl h
    · exact .inr ⟨m, by rw [← step_move hi hm]; exact h⟩

end Sys2Proof.Machine
end

