-- ==== Sys2Proof/Laws/Run.lean ====
section
/-! SUPPORT. Windows written out byte by byte, what a block step keeps, and runs: one step at a time, and in pairs. -/

namespace Sys2Proof.Machine

/-- With eight bytes left, the window of an operator step is those eight. -/
theorem State.streamWindow_eight {s : State} (h : s.pos + 8 ≤ s.inLen) :
    s.streamWindow = [s.inByte s.pos, s.inByte (s.pos + 1), s.inByte (s.pos + 2), s.inByte (s.pos + 3),
      s.inByte (s.pos + 4), s.inByte (s.pos + 5), s.inByte (s.pos + 6), s.inByte (s.pos + 7)] := by
  rw [State.streamWindow, show min 8 (s.inLen - s.pos) = 8 by omega]
  rfl

/-- With fourteen bytes of input, the window of the header step is those fourteen. -/
theorem State.headerWindow_fourteen {s : State} (h : 14 ≤ s.inLen) :
    s.headerWindow = [s.inByte 0, s.inByte 1, s.inByte 2, s.inByte 3, s.inByte 4, s.inByte 5, s.inByte 6, s.inByte 7,
      s.inByte 8, s.inByte 9, s.inByte 10, s.inByte 11, s.inByte 12, s.inByte 13] := by
  rw [State.headerWindow, show min 14 s.inLen = 14 by omega]
  rfl

/-- The window is the end marker exactly when the marker stands at `POS`. -/
theorem State.streamWindow_marker (s : State) : s.streamWindow = endMarkerBytes ↔ s.markerAtPos := by
  constructor
  · intro h
    have hl := s.streamWindow_length
    rw [h] at hl
    simp [endMarkerBytes] at hl
    have hp : s.pos + 8 ≤ s.inLen := by omega
    rw [State.streamWindow_eight hp] at h
    simp only [endMarkerBytes, List.cons.injEq] at h
    refine ⟨hp, fun j hj => ?_, h.2.2.2.2.2.2.2.1⟩
    have : j = 0 ∨ j = 1 ∨ j = 2 ∨ j = 3 ∨ j = 4 ∨ j = 5 ∨ j = 6 := by omega
    rcases this with rfl | rfl | rfl | rfl | rfl | rfl | rfl <;> simp [h]
  · rintro ⟨hp, h0, h1⟩
    have first := h0 0 (by omega)
    simp only [Nat.add_zero] at first
    rw [State.streamWindow_eight hp, first, h0 1 (by omega), h0 2 (by omega), h0 3 (by omega), h0 4 (by omega),
      h0 5 (by omega), h0 6 (by omega), h1]
    rfl

/-- Only the two busy phases have a block step. -/
theorem blockStep_phase {s t : State} (h : blockStep s = .next t) : s.phase = .header ∨ s.phase = .body := by
  rw [← Phase.isQuiescent_false]
  by_contra hq
  rw [Bool.not_eq_false] at hq
  rw [blockStep_quiescent hq] at h
  simp at h

/-- No instruction's meaning stops. -/
theorem exec_next (i : Instr) (s : State) : ∃ t, exec i s = .next t := by
  cases i with
  | hdr w h c col => rw [exec_hdr]; split; exact ⟨_, rfl⟩; split <;> exact ⟨_, rfl⟩
  | endMarker => rw [exec_endMarker]; split <;> exact ⟨_, rfl⟩
  | _ => exact ⟨_, rfl⟩

/-- One more step of a run. -/
theorem run_succ (k : Nat) {s t : State} (h : step s = .next t) :
    Host.Core.run Sys2Proof.core (k + 1) s = Host.Core.run Sys2Proof.core k t := by
  have : Sys2Proof.core.step s = .next t := h
  simp only [Host.Core.run, this]

/-- Two runs agree when their steps do, under a premise that steps keep. -/
theorem run_agree (R : State → State → Prop) (P : State → Prop)
    (hstep : ∀ s u, R s u → P s → OutcomeAgree R (step s) (step u))
    (hkeep : ∀ s t, P s → step s = .next t → P t) (k : Nat) :
    ∀ s u, R s u → P s →
      OutcomeAgree R (Host.Core.run Sys2Proof.core k s) (Host.Core.run Sys2Proof.core k u) := by
  induction k with
  | zero => exact fun s u h _ => h
  | succ k ih =>
    intro s u h hp
    have := hstep s u h hp
    simp only [Host.Core.run]
    have left : Sys2Proof.core.step s = step s := rfl
    have right : Sys2Proof.core.step u = step u := rfl
    rw [left, right]
    cases hs : step s <;> cases hu : step u <;> rw [hs, hu] at this
    · exact ih _ _ this (hkeep _ _ hp hs)
    all_goals first | exact this | exact this.elim

end Sys2Proof.Machine
end

