-- ==== Sys2Proof/Tests/Slice0.lean ====
section
/-! SUPPORT. Small tests, and for each statement with hypotheses a concrete state that meets them. Expected values are
those of spec/95_test_vectors.md (named in each docstring) or are written out from the formats of 30_encoding.md. -/

namespace Sys2Proof.Tests

open Sys2Proof Sys2Proof.Machine

/-! ## Small states -/

/-- The state after power-on reset with both parameters fixed: 2^40 as in the vectors' conventions, input unbounded. -/
def idle : State := { State.reset with maxOutBytes := 2 ^ 40, inLenMax := none }

/-- A quiescent block whose input buffer holds `file`. -/
def loaded (file : List Byte) : State := idle.loadInput 0 file

/-- The state right before the header step of `file`. -/
def opened (file : List Byte) : State := (loaded file).startDecode

/-- The state right after the header step: width, height and channels given, `ops` at `POS` = 14. -/
def body (w h : U32) (c : Byte) (ops : List Byte) : State :=
  ((idle.startDecode.publishHeader w h c 0).enterBody).loadInput 14 ops

/-- The state with one host move to come. -/
def moving (m : HostMove) (s : State) : State := { s with inbox := [m] }

/-- The next state, if there is one. -/
def after (o : Host.Outcome State Fault Refusal) : Option State :=
  match o with
  | .next t => some t
  | .fault _ => none
  | .refused _ => none

/-- What a vector lists of a next state: the pixel, `OUT`, `POS`. -/
def seen (o : Host.Outcome State Fault Refusal) : Option (List Nat × List Nat × Nat) :=
  (after o).map fun t =>
    ([t.px.r.toNat, t.px.g.toNat, t.px.b.toNat, t.px.a.toNat], t.outBytes.map BitVec.toNat, t.pos)

/-- An index entry of a next state. -/
def entry (o : Host.Outcome State Fault Refusal) (i : Fin 64) : Option Pixel :=
  (after o).map fun t => t.hist[i]

/-- What a vector lists of the end of a run: `PHASE`, `ERR_CODE`, `ERR_INFO`, `POS`, `HDR_VALID`, `EXPECTED_LEN`. -/
def ended (o : Host.Outcome State Fault Refusal) : Option (List Nat) :=
  (after o).map fun t =>
    [hostRead .phase t, hostRead .errCode t, hostRead .errInfo t, hostRead .pos t, hostRead .hdrValid t,
      hostRead .expectedLen t]

/-- The end marker. -/
def marker : List Byte := [0, 0, 0, 0, 0, 0, 0, 1]

/-- Vector V-H7's header record: 2 × 2, RGBA. -/
def header22 : List Byte := [0x71, 0x6F, 0x69, 0x66, 0, 0, 0, 2, 0, 0, 0, 2, 4, 0]

/-! ## Well-formedness smoke -/

theorem test_wf_refuses_run_62 : (Instr.run 62).wf = false := by decide
theorem test_wf_refuses_run_63 : (Instr.run 63).wf = false := by decide
theorem test_wf_accepts_run_61 : (Instr.run 61).wf = true := by decide
theorem test_wf_accepts_any_channel_byte : (Instr.hdr 0 0 7 0).wf = true := by decide

/-! ## Decoding: words written out bit by bit from R91 to R102 -/

theorem test_decode_index : decodeOperator [0b00110001] = .instr (.index 49) := by decide
theorem test_decode_diff : decodeOperator [0b01001011] = .instr (.diff 0 2 3) := by decide
theorem test_decode_luma : decodeOperator [0b10011110, 0b00001111] = .instr (.luma 30 0 15) := by decide
theorem test_decode_run_longest : decodeOperator [0b11111101] = .instr (.run 61) := by decide
theorem test_decode_rgb : decodeOperator [0b11111110, 0xFE, 1, 2] = .instr (.rgb 0xFE 1 2) := by decide
theorem test_decode_rgba : decodeOperator [0b11111111, 1, 2, 3, 4] = .instr (.rgba 1 2 3 4) := by decide
theorem test_decode_end : decodeOperator (marker ++ [0xDE, 0xAD]) = .instr .endMarker := by decide

theorem test_decode_header :
    decodeHeader [0x71, 0x6F, 0x69, 0x66, 0, 1, 0, 0, 0xFF, 0, 0, 2, 4, 1] =
      .instr (.hdr 0x00010000 0xFF000002 4 1) := by decide

/-- R106, R141: seven of the marker's bytes, or another last byte, are INDEX 0. -/
theorem test_decode_short_marker : decodeOperator [0, 0, 0, 0, 0, 0, 0] = .instr (.index 0) ∧
    decodeOperator [0, 0, 0, 0, 0, 0, 0, 2] = .instr (.index 0) := by decide

/-- R142, R143: the rejections of an operator, at the last byte count that is too small. -/
theorem test_decode_rejects : decodeOperator [] = .reject .exhausted ∧ decodeOperator [0xBF] = .reject .truncated ∧
    decodeOperator [0xFE, 0, 0] = .reject .truncated ∧ decodeOperator [0xFF, 1, 2, 3] = .reject .truncated := by decide

/-- R121: the length is tested before the magic, and case matters. -/
theorem test_decode_header_rejects : decodeHeader [0x71, 0x6F, 0x69] = .reject .tooShort ∧
    decodeHeader (List.replicate 13 0) = .reject .tooShort ∧
    decodeHeader [0x51, 0x4F, 0x49, 0x46, 0, 0, 0, 1, 0, 0, 0, 1, 7, 0] = .reject .badMagic := by decide

/-- The encoder against program PA's bytes, a run and RGB. -/
theorem test_encode_words : encode (.hdr 2 2 4 0) = header22 ∧ encode (.rgba 10 20 30 40) = [0xFF, 0x0A, 0x14, 0x1E, 0x28] ∧
    encode (.diff 3 3 3) = [0x7F] ∧ encode (.luma 37 3 12) = [0xA5, 0x3C] ∧ encode (.index 12) = [0x0C] ∧
    encode .endMarker = marker ∧ encode (.run 3) = [0xC3] ∧ encode (.rgb 255 0 128) = [0xFE, 0xFF, 0x00, 0x80] := by decide

/-- The opcode table's own words: each row's `match`. -/
theorem test_table_words :
    decodeTableWord 112 0x716F696600000000000000000000 = some (.hdr 0 0 0 0) ∧
    decodeTableWord 64 0x0000000000000001 = some .endMarker ∧
    decodeTableWord 32 0xFE000000 = some (.rgb 0 0 0) ∧
    decodeTableWord 40 0xFF00000000 = some (.rgba 0 0 0 0) ∧
    decodeTableWord 8 0x00 = some (.index 0) ∧
    decodeTableWord 8 0x40 = some (.diff 0 0 0) ∧
    decodeTableWord 16 0x8000 = some (.luma 0 0 0) ∧
    decodeTableWord 8 0xC0 = some (.run 0) := by decide

/-- A placed word is what the next step fetches, and it runs. -/
theorem test_fetch_word : (State.reset.withFetchWord 16 0x8000).fetch = .instr (.luma 0 0 0) ∧
    (State.reset.withFetchWord 112 0x716F696600000000000000000000).fetch = .instr (.hdr 0 0 0 0) ∧
    (State.reset.withFetchWord 64 1).fetch = .instr .endMarker ∧
    (after (step (State.reset.withFetchWord 40 0xFF01020304))).map (fun t => t.px) = some ⟨1, 2, 3, 4⟩ := by decide

/-! ## One step of each instruction -/

/-- V-H8: big-endian width, a colorspace byte of 123, zero height. -/
theorem test_hdr_fields :
    (after (step (opened ([0x71, 0x6F, 0x69, 0x66, 1, 2, 3, 4, 0, 0, 0, 0, 3, 0x7B] ++ marker)))).map
      (fun t => [t.width.toNat, t.height.toNat, t.channels.toNat, t.colorspace.toNat, t.expectedLen, t.pos]) =
      some [16909060, 0, 3, 123, 0, 14] := by decide

/-- V-H7 and V-H7b: a product of 16 is accepted at the limit 16 and rejected at 15. -/
theorem test_hdr_limit :
    ended (step { opened header22 with maxOutBytes := 16 }) = some [2, 0, 0, 14, 1, 16] ∧
    ended (step { opened header22 with maxOutBytes := 15 }) = some [4, 4, 0, 0, 1, 16] := by decide

/-- V-E8: `DONE` with `POS` at the marker; one output byte too few is `SizeMismatch` (V-E5). -/
theorem test_end :
    ended (step (body 0 5 4 marker)) = some [3, 0, 0, 14, 1, 0] ∧
    ended (step (body 1 1 3 marker)) = some [4, 7, 0, 14, 1, 3] := by decide

/-- V-I2: INDEX of a fresh entry in RGB mode; the hash is 53, not 0. -/
theorem test_index_fresh_rgb :
    seen (step (body 1 1 3 (0x05 :: marker))) = some ([0, 0, 0, 255], [0, 0, 0], 15) := by decide

/-- V-I3's last operator: a stored pixel is fetched back, alpha included. -/
theorem test_index_stored_rgba :
    seen (step { body 3 1 4 (0x0C :: marker) with hist := (idle.hist.set 12 ⟨10, 20, 30, 40⟩) }) =
      some ([10, 20, 30, 40], [10, 20, 30, 40], 15) := by decide

/-- V-D5: the fields are r, g, b from the top. -/
theorem test_diff_field_order :
    seen (step (body 1 1 3 (0x4B :: marker))) = some ([254, 0, 1, 255], [254, 0, 1], 15) ∧
    entry (step (body 1 1 3 (0x4B :: marker))) 54 = some ⟨254, 0, 1, 0⟩ := by decide

/-- V-D6's second operator: 255 + 1 wraps to 0, with no carry between lanes. -/
theorem test_diff_wraps :
    seen (step { body 2 1 3 (0x7C :: marker) with px := ⟨255, 0, 255, 255⟩ }) =
      some ([0, 1, 253, 255], [0, 1, 253], 15) := by decide

/-- V-L6: the high nibble is red. -/
theorem test_luma_nibbles :
    seen (step (body 1 1 3 ([0x9E, 0x0F] ++ marker))) = some ([246, 254, 5, 255], [246, 254, 5], 16) := by decide

/-- V-L5's second operator: alpha is untouched and the store is at 51. -/
theorem test_luma_rgba :
    seen (step { body 2 1 4 ([0xA5, 0x3C] ++ marker) with px := ⟨11, 21, 31, 40⟩ }) =
      some ([11, 26, 40, 40], [11, 26, 40, 40], 16) ∧
    entry (step { body 2 1 4 ([0xA5, 0x3C] ++ marker) with px := ⟨11, 21, 31, 40⟩ }) 51 = some ⟨11, 26, 40, 40⟩ := by
  decide

/-- V-R1's second operator: RGB keeps alpha and stores at 47. -/
theorem test_rgb_keeps_alpha :
    seen (step { body 2 1 4 ([0xFE, 1, 2, 3] ++ marker) with px := ⟨9, 9, 9, 7⟩ }) =
      some ([1, 2, 3, 7], [1, 2, 3, 7], 18) ∧
    entry (step { body 2 1 4 ([0xFE, 1, 2, 3] ++ marker) with px := ⟨9, 9, 9, 7⟩ }) 47 = some ⟨1, 2, 3, 7⟩ := by decide

/-- V-R2's first operator: in RGB mode the a operand is dropped, five bytes are consumed, the hash is 23. -/
theorem test_rgba_in_rgb_mode :
    seen (step (body 2 1 3 ([0xFF, 1, 2, 3, 9] ++ marker))) = some ([1, 2, 3, 255], [1, 2, 3], 19) ∧
    entry (step (body 2 1 3 ([0xFF, 1, 2, 3, 9] ++ marker))) 23 = some ⟨1, 2, 3, 0⟩ := by decide

/-- PA's first operator: all four lanes, stored at 12. -/
theorem test_rgba_in_rgba_mode :
    seen (step (body 2 2 4 [0xFF, 0x0A, 0x14, 0x1E, 0x28])) = some ([10, 20, 30, 40], [10, 20, 30, 40], 19) ∧
    entry (step (body 2 2 4 [0xFF, 0x0A, 0x14, 0x1E, 0x28])) 12 = some ⟨10, 20, 30, 40⟩ := by decide

/-- V-N3's first operator: two pixels, one store at 53. -/
theorem test_run_two :
    seen (step (body 3 1 4 [0xC1, 0x35])) = some ([0, 0, 0, 255], [0, 0, 0, 255, 0, 0, 0, 255], 15) ∧
    entry (step (body 3 1 4 [0xC1, 0x35])) 53 = some ⟨0, 0, 0, 255⟩ := by decide

/-- V-N2: 62 pixels, 186 bytes. -/
theorem test_run_longest :
    (after (step (body 62 1 3 (0xFD :: marker)))).map (fun t => (t.outLen, t.pos)) = some (186, 15) := by decide

/-! ## Errors and the host -/

/-- V-H4c (channels before the product), V-H3b, V-H2. -/
theorem test_header_errors :
    ended (step { opened [0x71, 0x6F, 0x69, 0x66, 255, 255, 255, 255, 255, 255, 255, 255, 255, 0] with maxOutBytes := 16 }) =
      some [4, 3, 255, 0, 0, 0] ∧
    ended (step (opened [0x51, 0x4F, 0x49, 0x46, 0, 0, 0, 1, 0, 0, 0, 1, 7, 0])) = some [4, 2, 0, 0, 0, 0] ∧
    ended (step (opened [0x71, 0x6F, 0x69])) = some [4, 1, 0, 0, 0, 0] := by decide

/-- V-E1, V-E2, V-E3 and V-H5. -/
theorem test_stream_errors :
    ended (step (body 1 1 3 [0xFE, 0, 0])) = some [4, 5, 0, 14, 1, 3] ∧
    ended (step (body 1 1 3 [0xFF, 1, 2, 3])) = some [4, 5, 0, 14, 1, 3] ∧
    ended (step (body 1 1 3 [0xA0])) = some [4, 5, 0, 14, 1, 3] ∧
    ended (step (body 1 1 4 [])) = some [4, 6, 0, 14, 1, 4] := by decide

/-- The host's write of 1 to `CTRL.START` opens the header step (R130). -/
theorem test_host_start :
    (after (step (moving (.writeReg .ctrl 1) (loaded header22)))).map (fun t => (t.phase, t.px, t.inLen)) =
      some (.header, ⟨0, 0, 0, 255⟩, 14) := by decide

/-- V-S4 and R35: a write to a read-only register changes nothing. -/
theorem test_host_read_only : after (step (moving (.writeReg .phase 2) idle)) = some idle := by decide

/-! ## Witnesses: for each statement with hypotheses, a concrete state that meets them together -/

/-- An RGBA body whose next operator is RUN 2. -/
def runBody : State := body 3 1 4 [0xC1, 0x35]

/-- A body that stands at the end marker with the right output length. -/
def markerBody : State := body 0 5 4 marker

theorem witness_StepRunsDecodedInstruction :
    (runBody.inbox = [] ∧ runBody.phase = .body ∧ decodeOperator runBody.streamWindow = .instr (.run 1)) ∧
    ((opened header22).inbox = [] ∧ (opened header22).phase = .header ∧
      decodeHeader (opened header22).headerWindow = .instr (.hdr 2 2 4 0)) := by decide

theorem witness_FetchWindowsHoldInputBytes :
    (markerBody.pos + 0 < markerBody.inLen ∧ markerBody.inMem.read (markerBody.pos + 0) = some 0) ∧
    (markerBody.pos + 7 < markerBody.inLen ∧ markerBody.inMem.read (markerBody.pos + 7) = some 1) ∧
    (13 < (opened header22).inLen ∧ (opened header22).inMem.read 13 = some 0) ∧
    (0 < (opened header22).inLen ∧ (opened header22).inMem.read 0 = some 0x71) := by decide

/-- An operator byte with no other byte after it is never the marker. -/
theorem single_byte_not_marker (op : Byte) : ¬∃ more, op :: [] = [0, 0, 0, 0, 0, 0, 0, 1] ++ more := by
  simp

theorem witness_DispatchFollowsOpcodeMap :
    (∀ op ∈ [0x00, 0x3F, 0x40, 0x7F, 0x80, 0xBF, 0xC0, 0xFD, 0xFE, 0xFF], ¬∃ more, (op : Byte) :: [] =
      [0, 0, 0, 0, 0, 0, 0, 1] ++ more) ∧
    (¬∃ more, ([0xBF, 0xFF] : List Byte) = [0, 0, 0, 0, 0, 0, 0, 1] ++ more) ∧
    (¬∃ more, ([0xFE, 1, 2, 3] : List Byte) = [0, 0, 0, 0, 0, 0, 0, 1] ++ more) ∧
    (¬∃ more, ([0xFF, 1, 2, 3, 4] : List Byte) = [0, 0, 0, 0, 0, 0, 0, 1] ++ more) :=
  ⟨fun op _ => single_byte_not_marker op, by simp, by simp, by simp⟩

/-- The boundary first bytes of the opcode map, as R103 gives them. -/
theorem witness_opcode_map_boundaries :
    decodeOperator [0x00] = .instr (.index 0) ∧ decodeOperator [0x3F] = .instr (.index 63) ∧
    decodeOperator [0x40] = .instr (.diff 0 0 0) ∧ decodeOperator [0x7F] = .instr (.diff 3 3 3) ∧
    decodeOperator [0x80, 0x00] = .instr (.luma 0 0 0) ∧ decodeOperator [0xBF, 0xFF] = .instr (.luma 63 15 15) ∧
    decodeOperator [0xC0] = .instr (.run 0) ∧ decodeOperator [0xFD] = .instr (.run 61) ∧
    decodeOperator [0xFE, 0, 0, 0] = .instr (.rgb 0 0 0) ∧ decodeOperator [0xFF, 0, 0, 0, 0] = .instr (.rgba 0 0 0 0) := by
  decide

theorem witness_OperatorDecodeEncodeAgree :
    ((Instr.run 61).wf = true ∧ (∀ w h c col, Instr.run 61 ≠ .hdr w h c col) ∧
      (encode (.run 61) ++ marker).take 8 ≠ endMarkerBytes) ∧
    (Instr.endMarker.wf = true ∧ ∀ w h c col, Instr.endMarker ≠ .hdr w h c col) ∧
    ((Instr.index 0).wf = true ∧ (∀ w h c col, Instr.index 0 ≠ .hdr w h c col) ∧
      (encode (.index 0) ++ [0, 0, 0, 0, 0, 0, 2]).take 8 ≠ endMarkerBytes) :=
  ⟨⟨by decide, by simp, by decide⟩, ⟨by decide, by simp⟩,
    ⟨by decide, by simp, by decide⟩⟩

theorem witness_DecodedInstructionReencodes :
    decodeOperator [0xFD, 7] = .instr (.run 61) ∧ decodeHeader (header22 ++ [7]) = .instr (.hdr 2 2 4 0) := by decide

/-- Both modes: the results, the frame and completion of the six operators. -/
theorem witness_inMode : runBody.inMode true ∧ (body 3 1 3 [0xC1]).inMode false := ⟨rfl, rfl⟩

/-- INDEX 0 followed by seven zero bytes is not the marker; INDEX 63 never is. Two bytes are too few for RGB's operands,
three for RGBA's. -/
theorem witness_operator_encodings :
    (BitVec.ofNat 8 (0#6).toNat :: [0, 0, 0, 0, 0, 0, 0]).take 8 ≠ [0, 0, 0, 0, 0, 0, 0, 1] ∧
    (BitVec.ofNat 8 (63#6).toNat :: [0, 0, 0, 0, 0, 0, 1]).take 8 ≠ [0, 0, 0, 0, 0, 0, 0, 1] ∧
    ([1, 2] : List Byte).length < 3 ∧ ([1, 2, 3] : List Byte).length < 4 := by decide

theorem witness_RunRepeatsPixel : runBody.inMode true ∧ (body 3 1 3 [0xFD]).inMode false ∧
    (0#6).toNat ≤ 61 ∧ (61#6).toNat ≤ 61 := ⟨rfl, rfl, by decide, by decide⟩

theorem witness_OperatorFrame :
    ∃ t, exec (.run 1) runBody = .next t ∧ (∀ w h c col, Instr.run 1 ≠ .hdr w h c col) ∧ Instr.run 1 ≠ .endMarker ∧
      (Instr.run 1).wf = true ∧ runBody.channels = 4 ∧ (body 1 1 3 []).channels ≠ 4 :=
  ⟨_, rfl, by simp, by simp, by decide, rfl, by decide⟩

theorem witness_IndexOfStoredEntryKeepsIndex :
    (runBody.inMode true ∧ hashFormula true runBody.hist[entryNumber 0] = (0#6).toNat) ∧
    ((body 1 1 3 []).inMode false ∧ hashFormula false (body 1 1 3 []).hist[entryNumber 53] = (53#6).toNat) :=
  ⟨⟨rfl, by decide⟩, ⟨rfl, by decide⟩⟩

theorem witness_EndChecksOutputLength : markerBody.outLen = markerBody.expectedLen ∧
    (body 1 1 3 marker).outLen ≠ (body 1 1 3 marker).expectedLen := by decide

/-- A body with the marker at `POS` has it there. -/
theorem body_marker (w h : U32) (c : Byte) : (body w h c marker).markerAtPos :=
  ⟨by simp [body, State.loadInput, State.enterBody, marker], fun j hj => by
    rcases j with _ | _ | _ | _ | _ | _ | _ | j
    all_goals first | rfl | omega, rfl⟩

theorem witness_MarkerAtBoundaryEndsDecode :
    (markerBody.phase = .body ∧ markerBody.inbox = [] ∧ markerBody.markerAtPos ∧
      markerBody.outLen = markerBody.expectedLen) ∧
    ((body 1 1 3 marker).phase = .body ∧ (body 1 1 3 marker).inbox = [] ∧ (body 1 1 3 marker).markerAtPos ∧
      (body 1 1 3 marker).outLen ≠ (body 1 1 3 marker).expectedLen) :=
  ⟨⟨rfl, rfl, body_marker 0 5 4, by decide⟩, ⟨rfl, rfl, body_marker 1 1 3, by decide⟩⟩

/-- Seven zero bytes with nothing after them, and eight bytes whose last is not 1. -/
theorem witness_PeekMatchesWholeMarkerOnly :
    ((body 1 1 4 [0, 0, 0, 0, 0, 0, 0]).phase = .body ∧ ¬(body 1 1 4 [0, 0, 0, 0, 0, 0, 0]).markerAtPos ∧
      ∃ t, step (body 1 1 4 [0, 0, 0, 0, 0, 0, 0]) = .next t) ∧
    ((body 1 1 4 [0, 0, 0, 0, 0, 0, 0, 2]).phase = .body ∧ ¬(body 1 1 4 [0, 0, 0, 0, 0, 0, 0, 2]).markerAtPos ∧
      ∃ t, step (body 1 1 4 [0, 0, 0, 0, 0, 0, 0, 2]) = .next t) :=
  ⟨⟨rfl, fun h => absurd h.1 (by decide), _, rfl⟩,
    ⟨rfl, fun h => absurd h.2.2 (by decide), _, rfl⟩⟩

theorem witness_HdrPublishesHeader :
    ((5 : Byte) ≠ 3 ∧ (5 : Byte) ≠ 4) ∧ ((4 : Byte) = 3 ∨ (4 : Byte) = 4) ∧
    idle.maxOutBytes < (0xFFFFFFFF#32).toNat * (0xFFFFFFFF#32).toNat * (4#8).toNat ∧
    (0#32).toNat * (0xFFFFFFFF#32).toNat * (3#8).toNat ≤ idle.maxOutBytes := by decide

/-- The header of 2 × 2 RGBA against a limit. -/
def limited (limit : Nat) : State := { opened header22 with maxOutBytes := limit }

/-- A clause of the header step each, at its boundary: 13 bytes; magic `qoig`; channel byte 5; the product 16 against the
limit 15; and against the limit 16. -/
theorem witness_HeaderStepTestsInOrder :
    ((opened (header22.take 13)).phase = .header ∧ (opened (header22.take 13)).inbox = [] ∧
      (opened (header22.take 13)).inLen = 13) ∧
    (14 ≤ (opened [0x71, 0x6F, 0x69, 0x67, 0, 0, 0, 0, 0, 0, 0, 0, 0, 0]).inLen ∧
      ¬(opened [0x71, 0x6F, 0x69, 0x67, 0, 0, 0, 0, 0, 0, 0, 0, 0, 0]).magicGood) ∧
    ((opened (header22.set 12 5)).magicGood ∧ (opened (header22.set 12 5)).inByte 12 = 5 ∧
      14 ≤ (opened (header22.set 12 5)).inLen) ∧
    ((limited 15).magicGood ∧ (limited 15).inByte 12 = 4 ∧ 14 ≤ (limited 15).inLen ∧ (limited 15).maxOutBytes <
      ((limited 15).inU32 4).toNat * ((limited 15).inU32 8).toNat * ((limited 15).inByte 12).toNat) ∧
    ((limited 16).magicGood ∧ (limited 16).inByte 12 = 4 ∧ 14 ≤ (limited 16).inLen ∧
      ((limited 16).inU32 4).toNat * ((limited 16).inU32 8).toNat * ((limited 16).inByte 12).toNat ≤
        (limited 16).maxOutBytes) :=
  ⟨by decide, ⟨by decide, fun h => absurd h.2.2.2 (by decide)⟩,
    ⟨⟨by decide, by decide, by decide, by decide⟩, by decide, by decide⟩,
    ⟨⟨by decide, by decide, by decide, by decide⟩, by decide, by decide, by decide⟩,
    ⟨⟨by decide, by decide, by decide, by decide⟩, by decide, by decide, by decide⟩⟩

theorem witness_ExhaustedStreamIsUnterminated :
    (body 1 1 4 []).phase = .body ∧ (body 1 1 4 []).inbox = [] ∧ (body 1 1 4 []).pos = (body 1 1 4 []).inLen ∧
    ∃ t, step (body 1 1 4 []) = .next t ∧ t.phase = .error ∧ t.errCode = some .unterminatedStream :=
  ⟨rfl, rfl, rfl, _, rfl, rfl, rfl⟩

/-- LUMA's first and last tag byte with nothing after it, RGB with 0 and 2 operand bytes, RGBA with 3. -/
theorem witness_MissingOperandIsTruncated :
    (∀ ops ∈ [[0x80], [0xBF], [0xFE], [0xFE, 0, 0], [0xFF, 1, 2, (3 : Byte)]],
      (body 1 1 3 ops).phase = .body ∧ (body 1 1 3 ops).inbox = [] ∧ (body 1 1 3 ops).pos < (body 1 1 3 ops).inLen) ∧
    (body 1 1 3 [0x80]).inLen - 14 - 1 < 1 ∧ (body 1 1 3 [0x80]).inByte 14 = 0x80 ∧
    (body 1 1 3 [0xBF]).inLen - 14 - 1 < 1 ∧ (body 1 1 3 [0xBF]).inByte 14 = 0xBF ∧
    (body 1 1 3 [0xFE, 0, 0]).inLen - 14 - 1 < 3 ∧ (body 1 1 3 [0xFE, 0, 0]).inByte 14 = 0xFE ∧
    (body 1 1 3 [0xFF, 1, 2, 3]).inLen - 14 - 1 < 4 ∧ (body 1 1 3 [0xFF, 1, 2, 3]).inByte 14 = 0xFF := by decide

theorem witness_OnlyMultiByteOperatorsTruncate :
    ∃ t, (body 1 1 3 [0xA0]).phase = .body ∧ (body 1 1 3 [0xA0]).inbox = [] ∧ step (body 1 1 3 [0xA0]) = .next t ∧
      t.phase = .error ∧ t.errCode = some .truncatedOperatorStream := ⟨_, rfl, rfl, rfl, rfl, rfl⟩

theorem witness_ErrorsArePrecise :
    (∃ t, (body 1 1 3 [0xA0]).inbox = [] ∧ step (body 1 1 3 [0xA0]) = .next t ∧ t.phase = .error ∧
      t.errCode ≠ some .dimensionsTooLarge) ∧
    ∃ t, ({ opened header22 with maxOutBytes := 15 } : State).inbox = [] ∧
      step { opened header22 with maxOutBytes := 15 } = .next t ∧ t.phase = .error ∧
      t.errCode = some .dimensionsTooLarge :=
  ⟨⟨_, rfl, rfl, rfl, by decide⟩, ⟨_, rfl, rfl, rfl, rfl⟩⟩

theorem witness_PowerOnFromAnyState : (moving .powerOn runBody).inbox = [.powerOn] := rfl

theorem witness_RaiseWritesErrorRegisters : runBody.inbox = [] := rfl

/-- The three phases that START leaves, and the two in which it is ignored. -/
theorem witness_StartWritesDecodeState :
    (moving (.writeReg .ctrl 1) runBody).phase = .body ∧ (moving (.writeReg .ctrl 1) (opened header22)).phase = .header ∧
    ((moving (.writeReg .ctrl 1) idle).phase = .idle ∧ (moving (.writeReg .ctrl 1) idle).inbox = [.writeReg .ctrl 1]) ∧
    (moving (.writeReg .ctrl 1) (markerBody.setPhase .done)).phase = .done ∧
    (moving (.writeReg .ctrl 1) (runBody.raise .sizeMismatch 0)).phase = .error ∧ 1 % 2 = 1 := by decide

/-- START during a decode, a write of 0 to `CTRL`, a write to a read-only register. -/
theorem witness_IgnoredRegisterWrites :
    ((moving (.writeReg .ctrl 1) runBody).inbox = [.writeReg .ctrl 1] ∧ (moving (.writeReg .ctrl 1) runBody).phase = .body) ∧
    (moving (.writeReg .ctrl 1) (opened header22)).phase = .header ∧
    (moving (.writeReg .ctrl 0) idle).inbox = [.writeReg .ctrl 0] ∧
    ((moving (.writeReg .pos 9) idle).inbox = [.writeReg .pos 9] ∧ Reg.pos ≠ .ctrl ∧ Reg.pos ≠ .inLen) := by decide

theorem witness_QuiescentHostWritesInput :
    ((moving (.writeReg .inLen 26) idle).phase.isQuiescent = true ∧
      (moving (.writeReg .inLen 26) idle).inLenAllowed 26 = true ∧
      (moving (.writeReg .inLen 26) idle).inbox = [.writeReg .inLen 26]) ∧
    ((moving (.writeIn 0 7) idle).phase.isQuiescent = true ∧ (moving (.writeIn 0 7) idle).inLenAllowed (0 + 1) = true ∧
      (moving (.writeIn 0 7) idle).inbox = [.writeIn 0 7]) ∧
    (moving (.writeReg .inLen 26) { idle with inLenMax := some 26 }).inLenAllowed 26 = true := by decide

theorem witness_DecodeRefusesInputWrites :
    ((moving (.writeIn 0 7) runBody).phase = .body ∧ (moving (.writeIn 0 7) runBody).inbox = [.writeIn 0 7]) ∧
    ((moving (.writeReg .inLen 3) (opened header22)).phase = .header ∧
      (moving (.writeReg .inLen 3) (opened header22)).inbox = [.writeReg .inLen 3]) := by decide

theorem witness_QuiescentBlockHasNoStep : (idle.phase = .idle ∧ idle.inbox = []) ∧
    ((markerBody.setPhase .done).phase = .done ∧ (markerBody.setPhase .done).inbox = []) ∧
    ((runBody.raise .sizeMismatch 0).phase = .error ∧ (runBody.raise .sizeMismatch 0).inbox = []) := by decide

theorem witness_RegisterNumbersDistinct : Reg.ctrl.number = 0 ∧ Reg.maxOutBytes.number = 13 := by decide

/-- Each clause of the phase graph: the block, `wait` in both kinds of phase, power-on, START, another register, `IN`. -/
theorem witness_PhaseGraph :
    (∃ t, step runBody = .next t ∧ runBody.inbox = []) ∧
    (∃ t, step (moving .wait runBody) = .next t ∧ (moving .wait runBody).phase.isQuiescent = false) ∧
    (∃ t, step (moving .wait idle) = .next t ∧ (moving .wait idle).phase.isQuiescent = true) ∧
    (∃ t, step (moving .powerOn runBody) = .next t) ∧ (∃ t, step (moving (.writeReg .ctrl 1) idle) = .next t) ∧
    (∃ t, step (moving (.writeReg .inLen 3) idle) = .next t) ∧ ∃ t, step (moving (.writeIn 3 1) idle) = .next t :=
  ⟨⟨_, rfl, rfl⟩, ⟨_, rfl, rfl⟩, ⟨_, rfl, rfl⟩, ⟨_, rfl⟩, ⟨_, rfl⟩, ⟨_, rfl⟩, ⟨_, rfl⟩⟩

/-- A body state, in the middle of a decode, that meets the invariant and takes a step. -/
theorem witness_StepKeepsInv : runBody.Inv ∧ ∃ t, step runBody = .next t :=
  ⟨{  inCanonical := by decide
      outCanonical := by decide
      outListed := by decide
      errorPhase := by decide
      errorInfo := by decide
      header := by decide
      noHeader := by decide
      beforeHeader := by decide
      afterHeader := by decide
      bodyError := by decide
      posInInput := by decide
      doneLength := by decide
      outBound := by decide }, _, rfl⟩

/-- In RGBA mode, with an entry that is not zero; in `HEADER`; and in RGB mode. -/
theorem witness_StepKeepsPixelInv :
    (({ runBody with hist := runBody.hist.set 53 ⟨0, 0, 0, 255⟩ } : State).PixelInv ∧
      ∃ t, step { runBody with hist := runBody.hist.set 53 ⟨0, 0, 0, 255⟩ } = .next t) ∧
    (opened header22).PixelInv ∧ (body 1 1 3 [0x35]).PixelInv :=
  ⟨⟨⟨(fun h => absurd h (by decide)), fun h => absurd h (by decide), by decide⟩, _, rfl⟩,
    ⟨fun _ => ⟨rfl, by decide⟩, fun h => absurd h (by decide), by decide⟩,
    ⟨fun h => absurd h (by decide), fun _ => ⟨rfl, by decide⟩, by decide⟩⟩

theorem witness_CanonicalMemoriesAreEqualData :
    Memory.wf [(0, 1), (5, 2)] = true ∧ ∀ a, Memory.read [(0, 1), (5, 2)] a = Memory.read [(0, 1), (5, 2)] a :=
  ⟨by decide, fun _ => rfl⟩

theorem witness_BlockNeverRewritesMemory : ∃ t, runBody.inbox = [] ∧ step runBody = .next t ∧
    runBody.outLen < t.outLen := ⟨_, rfl, rfl, by decide⟩

theorem witness_BusyBlockAlwaysSteps : (runBody.phase = .body ∧ runBody.inbox = []) ∧
    (opened header22).phase = .header ∧ (opened header22).inbox = [] := by decide

theorem witness_EveryDecodeEnds : (runBody.inbox = [] ∧ runBody.phase = .body ∧ runBody.inLen - runBody.pos + 1 = 3) ∧
    (opened header22).inbox = [] ∧ (opened header22).phase = .header := by decide

/-- Two quiescent states that hold the same fully written input, one of them after another decode. -/
theorem witness_DecodeIsFunctionOfInput :
    (loaded header22).phase.isQuiescent = true ∧ ((opened header22).raise .badMagic 0).phase.isQuiescent = true ∧
    (loaded header22).inMem = ((opened header22).raise .badMagic 0).inMem ∧
    (loaded header22).inLen = ((opened header22).raise .badMagic 0).inLen ∧
    (loaded header22).maxOutBytes = ((opened header22).raise .badMagic 0).maxOutBytes ∧ (loaded header22).inputWritten :=
  ⟨rfl, rfl, rfl, rfl, rfl, by unfold State.inputWritten; decide⟩

/-- Two inputs that differ in the ninth byte of the body. -/
theorem witness_StepReadsEightBytesAtMost :
    (body 9 1 4 (List.replicate 9 0xC0)).phase = .body ∧ (body 9 1 4 (List.replicate 9 0xC0)).inbox = [] ∧
    SameButInput (body 9 1 4 (List.replicate 9 0xC0)) (body 9 1 4 (List.replicate 8 0xC0 ++ [0xFE])) ∧
    ∀ j, j < 8 → (body 9 1 4 (List.replicate 9 0xC0)).inByte (14 + j) =
      (body 9 1 4 (List.replicate 8 0xC0 ++ [0xFE])).inByte (14 + j) :=
  ⟨rfl, rfl, rfl, by decide⟩

theorem witness_ColorspaceAffectsNothing : SameButColorspace runBody { runBody with colorspace := 1 } := rfl

theorem witness_RgbModeIgnoresAlphaLanes :
    (body 1 1 3 [0x35]).channels = 3 ∧ (body 1 1 3 [0x35]).phase ≠ .header ∧ (body 1 1 3 [0x35]).inbox = [] ∧
    SameButAlpha (body 1 1 3 [0x35]) { body 1 1 3 [0x35] with px := ⟨0, 0, 0, 9⟩, hist := Vector.replicate 64 ⟨0, 0, 0, 7⟩ } :=
  ⟨rfl, by decide, rfl, rfl, by decide⟩

theorem witness_DoneStandsAtMarker : ∃ t, markerBody.inbox = [] ∧ step markerBody = .next t ∧ t.phase = .done :=
  ⟨_, rfl, rfl, rfl⟩

/-- A finished decode and a failed one that meet the invariant. -/
theorem witness_ResultAtQuiescence :
    ((markerBody.setPhase .done).Inv ∧ (markerBody.setPhase .done).phase = .done) ∧
    ((runBody.raise .truncatedOperatorStream 0).Inv ∧ (runBody.raise .truncatedOperatorStream 0).phase = .error) := by
  refine ⟨⟨?_, rfl⟩, ⟨?_, rfl⟩⟩ <;> constructor <;> decide

end Sys2Proof.Tests
end

section
/-! SUPPORT. What every step keeps, and what a host move of one kind leaves: the shape of the proofs about
10_state.md. -/

namespace Sys2Proof.Machine

/-! ## Invariants of the whole step -/

/-- A property is kept by every step when dropping the host's consumed move, the block's step and every host move
keep it. -/
theorem step_keeps {P : State → Prop} (hbox : ∀ s moves, P s → P (s.setInbox moves))
    (hblock : ∀ s t, P s → blockStep s = .next t → P t) (hhost : ∀ m s t, P s → hostMove m s = .next t → P t)
    {s t : State} (hs : P s) (h : step s = .next t) : P t := by
  obtain ⟨moves, hb | ⟨m, hm⟩⟩ := step_cases h
  · exact hblock _ _ (hbox s moves hs) hb
  · exact hhost m _ _ (hbox s moves hs) hm

/-! ## Host moves that answer a next state -/

theorem hostMove_writeInLen_next {s t : State} {n : Nat} (h : hostMove (.writeReg .inLen n) s = .next t) :
    t = s.setInLen n := by
  simp only [hostMove, hostWriteReg, hostWriteInLen] at h
  split at h
  · split at h
    · simpa using h.symm
    · simp at h
  · simp at h

theorem hostMove_writeIn_next {s t : State} {a : Nat} {b : Byte} (h : hostMove (.writeIn a b) s = .next t) :
    t = s.writeInput a b := by
  simp only [hostMove, hostWriteIn] at h
  split at h
  · split at h
    · simpa using h.symm
    · simp at h
  · simp at h

/-- No register write but START's changes `PHASE` (R36, R44). -/
theorem hostMove_writeReg_phase {s t : State} {r : Reg} {v : Nat} (hr : r ≠ .ctrl)
    (h : hostMove (.writeReg r v) s = .next t) : t.phase = s.phase := by
  by_cases hin : r = .inLen
  · subst hin
    rw [hostMove_writeInLen_next h, State.setInLen_phase]
  · rw [hostMove_readOnly s v hr hin, Host.Outcome.next.injEq] at h
    rw [h]

/-! ## The mode and the hash, in the terms of the statements -/

/-- With a legal channel byte, a pixel has that many bytes (R31). -/
theorem State.cs_eq_channels {s : State} (h : s.channels = 3 ∨ s.channels = 4) : s.cs = s.channels.toNat := by
  rcases h with h | h
  · rw [State.cs_rgb (by rw [h]; decide), h]; rfl
  · rw [State.cs_rgba h, h]; rfl

/-- The machine's hash is the formula of R148 in the mode the channel byte selects. -/
theorem State.pixelHash_eq_hashFormula (s : State) (p : Pixel) :
    (pixelHash s.mode p).val = hashFormula (decide (s.channels = 4)) p := by
  by_cases h : s.channels = 4
  · rw [pixelHash_val, hashFormula, State.mode_rgba h, decide_eq_true h]
    rfl
  · rw [pixelHash_val, hashFormula, State.mode_rgb h, decide_eq_false h]
    rfl

end Sys2Proof.Machine
end

section
/-! O37: every step keeps the invariant of 10_state.md R45. One lemma for each state a step can leave. -/

namespace Sys2Proof.Machine

namespace State.Inv

variable {s : State}

theorem setInbox (h : s.Inv) (moves : List HostMove) : (s.setInbox moves).Inv := by
  cases h
  constructor <;> assumption

/-! ### Errors and the header step -/

/-- `HEADER` is not an error phase, and nothing is decoded in it yet (R41, R44). -/
theorem header_blank (h : s.Inv) (hp : s.phase = .header) : s.errCode = none ∧ s.errInfo = 0 ∧ s.outLen = 0 := by
  obtain ⟨-, -, -, -, -, hout, -⟩ := h.noHeader (h.beforeHeader (.inr hp))
  have hcode : s.errCode = none := by
    by_contra hne
    simpa [hp] using h.errorPhase.1 hne
  exact ⟨hcode, h.errorInfo (by simp [hcode]), hout⟩

/-- Taking an error keeps the invariant, if a valid header puts the cursor in the body. -/
theorem raise (h : s.Inv) (e : DecodeError) (info : Byte) (hpos : s.hdrValid = true → 14 ≤ s.pos) :
    (s.raise e info).Inv where
  inCanonical := h.inCanonical
  outCanonical := h.outCanonical
  outListed := h.outListed
  errorPhase := by simp
  errorInfo he := if_neg (by simpa using he)
  header := h.header
  noHeader := h.noHeader
  beforeHeader := by simp
  afterHeader := by simp
  bodyError _ hv _ := hpos hv
  posInInput := by simp
  doneLength := by simp
  outBound := h.outBound

/-- A published header that fails the dimension test (40_header.md R127). -/
theorem raise_dimensions (h : s.Inv) (hp : s.phase = .header) (w ht : U32) {c : Byte} (col : Byte)
    (hc : c = 3 ∨ c = 4) : ((s.publishHeader w ht c col).raise .dimensionsTooLarge 0).Inv where
  inCanonical := h.inCanonical
  outCanonical := h.outCanonical
  outListed := h.outListed
  errorPhase := by simp
  errorInfo := by simp
  header _ := ⟨hc, rfl⟩
  noHeader := by simp
  beforeHeader := by simp
  afterHeader := by simp
  bodyError := by simp
  posInInput := by simp
  doneLength := by simp
  outBound := by simp [h.header_blank hp]

/-- A published header that passes every test (R128). -/
theorem enterBody (h : s.Inv) (hp : s.phase = .header) (w ht : U32) {c : Byte} (col : Byte) (hc : c = 3 ∨ c = 4)
    (hmax : headerProduct w ht c ≤ s.maxOutBytes) (hin : 14 ≤ s.inLen) :
    (s.publishHeader w ht c col).enterBody.Inv where
  inCanonical := h.inCanonical
  outCanonical := h.outCanonical
  outListed := h.outListed
  errorPhase := by simp [h.header_blank hp]
  errorInfo := by simp [h.header_blank hp]
  header _ := ⟨hc, rfl⟩
  noHeader := by simp
  beforeHeader := by simp
  afterHeader _ := ⟨rfl, hmax, le_rfl⟩
  bodyError := by simp
  posInInput _ := hin
  doneLength := by simp
  outBound := by simp [h.header_blank hp]

theorem headerStep {t : State} (h : s.Inv) (hp : s.phase = .header) (hb : blockStep s = .next t) : t.Inv := by
  have hv : s.hdrValid = true → 14 ≤ s.pos := by simp [h.beforeHeader (.inr hp)]
  rcases headerStep_cases hp hb with
    rfl | rfl | ⟨w, ht, c, col, -, ⟨-, -, rfl⟩ | ⟨hc, -, rfl⟩ | ⟨hc, hmax, hin, rfl⟩⟩
  · exact h.raise _ _ hv
  · exact h.raise _ _ hv
  · exact h.raise _ _ hv
  · exact h.raise_dimensions hp w ht col hc
  · exact h.enterBody hp w ht col hc hmax hin

/-! ### The operator step -/

/-- `n` more pixels keep the output whole, and for `n ≤ 62` and a longer body within the bound of R33. -/
theorem outBound_append (h : s.Inv) (hp : s.phase = .body) {n : Nat} (k : Nat) (hn : n ≤ 62) :
    (s.outLen + n * s.cs) % s.channels.toNat = 0 ∧
      s.outLen + n * s.cs ≤ 62 * s.channels.toNat * (s.pos + 1 + k - 14) := by
  obtain ⟨hv, -, hpos⟩ := h.afterHeader (.inl hp)
  obtain ⟨hmod, hle⟩ := h.outBound hv
  have hc := (h.header hv).1
  rw [State.cs_eq_channels hc]
  rcases hc with hc | hc <;> simp [hc] at hmod hle ⊢ <;> omega

/-- A pixel operator of at most 62 pixels that ends within the input (R146 to R151). -/
theorem pixelOperator (h : s.Inv) (hp : s.phase = .body) (p : Pixel) {n k : Nat} (hn : n ≤ 62)
    (hk : s.pos + 1 + k ≤ s.inLen) : ((s.setPx p).commonTail n k).Inv where
  inCanonical := h.inCanonical
  outCanonical := Memory.wf_writeBytes h.outCanonical _ _
  outListed := by
    have hlist := Memory.offsets_append h.outListed (repeatedPixel n s.mode (s.mode.merge p s.px))
    rwa [repeatedPixel_length] at hlist
  errorPhase := h.errorPhase
  errorInfo := h.errorInfo
  header := h.header
  noHeader := by simp [h.afterHeader (.inl hp)]
  beforeHeader := h.beforeHeader
  afterHeader _ := by
    obtain ⟨hv, hmax, hpos⟩ := h.afterHeader (.inl hp)
    exact ⟨hv, hmax, by simp; omega⟩
  bodyError := by simp [hp]
  posInInput _ := hk
  doneLength := by simp [hp]
  outBound _ := h.outBound_append hp k hn

/-- END with the right output length (46_end_marker.md R200). -/
theorem enterDone (h : s.Inv) (hp : s.phase = .body) (hlen : s.outLen = s.expectedLen) : (s.setPhase .done).Inv where
  inCanonical := h.inCanonical
  outCanonical := h.outCanonical
  outListed := h.outListed
  errorPhase := by simpa [hp] using h.errorPhase
  errorInfo := h.errorInfo
  header := h.header
  noHeader := h.noHeader
  beforeHeader := by simp
  afterHeader _ := h.afterHeader (.inl hp)
  bodyError := by simp
  posInInput := by simp
  doneLength _ := hlen
  outBound := h.outBound

theorem operatorStep {t : State} (h : s.Inv) (hp : s.phase = .body) (hb : blockStep s = .next t) : t.Inv := by
  obtain ⟨-, -, hpos⟩ := h.afterHeader (.inl hp)
  rcases operatorStep_cases hp hb with
    ⟨p, n, k, rfl, -, hn, -, hk⟩ | ⟨-, ⟨hlen, rfl⟩ | ⟨-, rfl⟩⟩ | ⟨-, rfl⟩ | ⟨-, rfl⟩
  · exact h.pixelOperator hp p hn hk
  · exact h.enterDone hp hlen
  · exact h.raise _ _ fun _ => hpos
  · exact h.raise _ _ fun _ => hpos
  · exact h.raise _ _ fun _ => hpos

theorem blockStep {t : State} (h : s.Inv) (hb : blockStep s = .next t) : t.Inv :=
  (blockStep_phase hb).elim (h.headerStep · hb) (h.operatorStep · hb)

/-! ### The host's moves -/

/-- Before a header, with nothing decoded and no error, the invariant holds (R41, R42). -/
theorem of_blank (hphase : s.phase = .idle ∨ s.phase = .header) (hin : s.inMem.wf = true) (hout : s.outMem = [])
    (hcode : s.errCode = none) (hinfo : s.errInfo = 0) (hv : s.hdrValid = false)
    (hregs : s.width = 0 ∧ s.height = 0 ∧ s.channels = 0 ∧ s.colorspace = 0 ∧ s.expectedLen = 0 ∧ s.outLen = 0 ∧
      s.pos = 0) : s.Inv where
  inCanonical := hin
  outCanonical := by rw [hout]; rfl
  outListed := by
    obtain ⟨-, -, -, -, -, hlen, -⟩ := hregs
    rw [hout, hlen]; rfl
  errorPhase := by rcases hphase with hp | hp <;> simp [hp, hcode]
  errorInfo _ := hinfo
  header := by simp [hv]
  noHeader _ := hregs
  beforeHeader _ := hv
  afterHeader := by rcases hphase with hp | hp <;> simp [hp]
  bodyError := by simp [hv]
  posInInput := by rcases hphase with hp | hp <;> simp [hp]
  doneLength := by rcases hphase with hp | hp <;> simp [hp]
  outBound := by simp [hv]

theorem startDecode (h : s.Inv) : s.startDecode.Inv :=
  of_blank (.inr rfl) h.inCanonical rfl rfl rfl rfl ⟨rfl, rfl, rfl, rfl, rfl, rfl, rfl⟩

theorem powerOn (s : State) : s.powerOn.Inv :=
  of_blank (.inl rfl) rfl rfl rfl rfl rfl ⟨rfl, rfl, rfl, rfl, rfl, rfl, rfl⟩

theorem reset : State.reset.Inv := powerOn State.reset

theorem writeInput (h : s.Inv) (a : Nat) (b : Byte) : (s.writeInput a b).Inv := by
  have hwf := Memory.wf_write h.inCanonical a b
  cases h
  constructor <;> assumption

/-- A new `IN_LEN` matters in `BODY` only, where the host cannot write it. -/
theorem setInLen (h : s.Inv) (hq : s.phase.isQuiescent = true) (n : Nat) : (s.setInLen n).Inv := by
  have hbody : (s.setInLen n).phase = .body → (s.setInLen n).pos ≤ (s.setInLen n).inLen := by
    intro hp
    simp only [State.setInLen_phase] at hp
    simp [hp, Phase.isQuiescent] at hq
  cases h
  constructor <;> assumption

theorem hostMove {m : HostMove} {t : State} (h : s.Inv) (hm : hostMove m s = .next t) : t.Inv := by
  rcases hostMove_cases hm with rfl | ⟨rfl, -⟩ | rfl | ⟨-, a, b, rfl⟩ | ⟨hq, n, rfl⟩
  · exact h
  · exact h.startDecode
  · exact powerOn s
  · exact h.writeInput a b
  · exact h.setInLen hq n

end State.Inv

/-- Settles O37, by what a step can leave: each such state keeps the invariant. -/
theorem stepKeepsInv : Obligations.StepKeepsInv := fun _ _ hs hstep =>
  step_keeps (fun _ moves h => h.setInbox moves) (fun _ _ h hb => h.blockStep hb) (fun _ _ _ h hm => h.hostMove hm)
    hs hstep

/-- Settles O38: `State.reset` is what power-on leaves of itself. -/
theorem resetMeetsInv : Obligations.ResetMeetsInv := State.Inv.reset

end Sys2Proof.Machine
end

section
/-! O39: every step keeps the invariant of the pixel registers (10_state.md R21, R24, R26, R41). -/

namespace Sys2Proof.Machine

namespace State.PixelInv

variable {s t : State}

/-- The invariant reads `PX`, `HIST` and `CHANNELS`, and only a state in `HEADER` has more to meet. -/
theorem congr (h : s.PixelInv) (hpx : t.px = s.px) (hhist : t.hist = s.hist) (hch : t.channels = s.channels)
    (hphase : t.phase = .header → s.phase = .header) : t.PixelInv where
  fresh hp := by rw [hpx, hhist]; exact h.fresh (hphase hp)
  rgbLanes := by rw [hpx, hhist, hch]; exact h.rgbLanes
  keyed := by rw [hhist, hch]; exact h.keyed

/-- With an index of zeros, whatever `CHANNELS` is, only `PX` is left to check. -/
theorem of_zero_hist (hhist : ∀ i : Fin 64, t.hist[i] = ⟨0, 0, 0, 0⟩) (hpx : t.phase = .header → t.px = ⟨0, 0, 0, 255⟩)
    (ha : t.channels = 3 → t.px.a = 255) : t.PixelInv where
  fresh hp := ⟨hpx hp, hhist⟩
  rgbLanes hc := ⟨ha hc, fun i => by rw [hhist]⟩
  keyed i := .inl (hhist i)

theorem setInbox (h : s.PixelInv) (moves : List HostMove) : (s.setInbox moves).PixelInv := h.congr rfl rfl rfl id

theorem raise (h : s.PixelInv) (e : DecodeError) (info : Byte) : (s.raise e info).PixelInv :=
  h.congr rfl rfl rfl (by simp)

/-! ### The block's step -/

/-- `HEADER` holds the START values, which suit the new channel byte, whatever it is. -/
theorem publishHeader (h : s.PixelInv) (hp : s.phase = .header) (w ht : U32) (c col : Byte) :
    (s.publishHeader w ht c col).PixelInv := by
  obtain ⟨hpx, hhist⟩ := h.fresh hp
  exact of_zero_hist hhist (fun _ => hpx) fun _ => by simp [hpx]

theorem headerStep (h : s.PixelInv) (hp : s.phase = .header) (hb : blockStep s = .next t) : t.PixelInv := by
  rcases headerStep_cases hp hb with
    rfl | rfl | ⟨w, ht, c, col, -, ⟨-, -, rfl⟩ | ⟨-, -, rfl⟩ | ⟨-, -, -, rfl⟩⟩
  · exact h.raise _ _
  · exact h.raise _ _
  · exact h.raise _ _
  · exact (h.publishHeader hp w ht c col).raise _ _
  · exact (h.publishHeader hp w ht c col).congr rfl rfl rfl (by simp)

/-- The one entry an operator stores is keyed by its own hash, and in RGB mode it keeps its a lane. -/
theorem pixelOperator (h : s.PixelInv) (hp : s.phase = .body) (p : Pixel) (n k : Nat) :
    ((s.setPx p).commonTail n k).PixelInv where
  fresh := by simp [hp]
  rgbLanes hc := by
    have hmode : s.mode = .rgb := State.mode_rgb (by rw [show s.channels = 3 from hc]; decide)
    obtain ⟨hpx, hhist⟩ := h.rgbLanes hc
    refine ⟨by simpa [hmode] using hpx, fun i => ?_⟩
    rw [State.commonTail_entry]
    split
    · simpa [hmode] using hhist i
    · exact hhist i
  keyed i := by
    rw [State.commonTail_entry]
    split
    · rename_i hi
      right
      rw [State.commonTail_channels, ← State.pixelHash_eq_hashFormula, pixelHash_merge, hi]
      rfl
    · exact h.keyed i

theorem operatorStep (h : s.PixelInv) (hp : s.phase = .body) (hb : blockStep s = .next t) : t.PixelInv := by
  rcases operatorStep_cases hp hb with
    ⟨p, n, k, rfl, -⟩ | ⟨-, ⟨-, rfl⟩ | ⟨-, rfl⟩⟩ | ⟨-, rfl⟩ | ⟨-, rfl⟩
  · exact h.pixelOperator hp p n k
  · exact h.congr rfl rfl rfl (by simp)
  · exact h.raise _ _
  · exact h.raise _ _
  · exact h.raise _ _

theorem blockStep (h : s.PixelInv) (hb : blockStep s = .next t) : t.PixelInv :=
  (blockStep_phase hb).elim (h.headerStep · hb) (h.operatorStep · hb)

/-! ### The host's moves -/

theorem startDecode (s : State) : s.startDecode.PixelInv :=
  of_zero_hist (fun i => Vector.getElem_replicate i.isLt) (fun _ => rfl) fun _ => rfl

theorem powerOn (s : State) : s.powerOn.PixelInv :=
  of_zero_hist (fun i => Vector.getElem_replicate i.isLt) (by simp) (by simp)

theorem reset : State.reset.PixelInv := powerOn State.reset

theorem hostMove {m : HostMove} (h : s.PixelInv) (hm : hostMove m s = .next t) : t.PixelInv := by
  rcases hostMove_cases hm with rfl | ⟨rfl, -⟩ | rfl | ⟨-, a, b, rfl⟩ | ⟨-, n, rfl⟩
  · exact h
  · exact startDecode s
  · exact powerOn s
  · exact h.congr rfl rfl rfl id
  · exact h.congr rfl rfl rfl id

end State.PixelInv

/-- Settles O39, by what a step can leave: the START values, the same pixel registers, or one operator's store. -/
theorem stepKeepsPixelInv : Obligations.StepKeepsPixelInv := fun _ _ hs hstep =>
  step_keeps (fun _ moves h => h.setInbox moves) (fun _ _ h hb => h.blockStep hb) (fun _ _ _ h hm => h.hostMove hm)
    hs hstep

/-- Settles O40: `State.reset` is what power-on leaves of itself. -/
theorem resetMeetsPixelInv : Obligations.ResetMeetsPixelInv := State.PixelInv.reset

end Sys2Proof.Machine
end

section
/-! The six pixel operators as one: each writes a pixel to `PX` and runs the common tail (41_operator_step.md R146 to
R151). O14 is what that leaves unchanged. -/

namespace Sys2Proof.Machine

/-! ## One shape for the six operators -/

/-- The pixel an operator writes to `PX`; RUN writes the old one. HDR and END write none. -/
def newPixel (i : Instr) (s : State) : Pixel :=
  match i with
  | .hdr _ _ _ _ => s.px
  | .endMarker => s.px
  | .rgb r g b => ⟨r, g, b, s.px.a⟩
  | .rgba r g b a => ⟨r, g, b, a⟩
  | .index n => s.hist[entryNumber n]
  | .diff rf gf bf => addDeltas (diffDelta rf) (diffDelta gf) (diffDelta bf) s.px
  | .luma gf rf bf =>
    addDeltas (lumaChroma rf (lumaGreen gf)) (lumaGreen gf) (lumaChroma bf (lumaGreen gf)) s.px
  | .run _ => s.px

/-- How many copies of the pixel an operator appends: more than one for RUN only (R99). -/
def pixelCount (i : Instr) : Nat :=
  match i with
  | .run l => l.toNat + 1
  | _ => 1

/-- An operator's meaning, by its pixel, its count and its operand bytes. -/
theorem exec_pixelOperator {i : Instr} (hh : ∀ w h c col, i ≠ .hdr w h c col) (he : i ≠ .endMarker) (s : State) :
    exec i s = .next ((s.setPx (newPixel i s)).commonTail (pixelCount i) (i.length - 1)) := by
  cases i with
  | hdr w h c col => exact absurd rfl (hh w h c col)
  | endMarker => exact absurd rfl he
  | rgb r g b => exact exec_rgb r g b s
  | rgba r g b a => exact exec_rgba r g b a s
  | index n => exact exec_index n s
  | diff rf gf bf => exact exec_diff rf gf bf s
  | luma gf rf bf => exact exec_luma gf rf bf s
  | run l => exact exec_run l s

/-- HDR never stands at an operator boundary (30_encoding.md R103). -/
theorem decodeOperator_ne_hdr {bs : List Byte} {i : Instr} (hi : decodeOperator bs = .instr i) (w h : U32)
    (c col : Byte) : i ≠ .hdr w h c col := by
  rcases decodeOperator_cases hi with ⟨-, rfl⟩ | ⟨-, op, xs, -, hd⟩
  · simp
  · rcases decodeTag_cases hd with ⟨-, rfl⟩ | ⟨-, rfl⟩ | ⟨_, _, -, -, rfl⟩ | ⟨_, _, _, _, -, -, rfl⟩ |
      ⟨_, _, _, _, _, -, -, rfl⟩ | ⟨-, -, rfl⟩ <;> simp

/-! ## What the common tail leaves unchanged -/

section
variable (s : State) (p : Pixel) (n k : Nat)

theorem State.pixelOperator_rest :
    (s.setPx p).commonTail n k =
      { s with
        px := ((s.setPx p).commonTail n k).px
        hist := ((s.setPx p).commonTail n k).hist
        outMem := ((s.setPx p).commonTail n k).outMem
        outLen := ((s.setPx p).commonTail n k).outLen
        pos := ((s.setPx p).commonTail n k).pos } := rfl

/-- Outside RGBA mode no operator writes `PX.a` (10_state.md R22). -/
theorem State.pixelOperator_alpha (h : s.channels ≠ 4) : ((s.setPx p).commonTail n k).px.a = s.px.a := by
  simp [State.mode_rgb h]

/-- Only the entry at the new pixel's hash is stored (R149). -/
theorem State.pixelOperator_entry {j : Fin 64}
    (h : j.val ≠ hashFormula (decide (s.channels = 4)) ((s.setPx p).commonTail n k).px) :
    ((s.setPx p).commonTail n k).hist[j] = s.hist[j] := by
  rw [← State.pixelHash_eq_hashFormula] at h
  rw [State.commonTail_entry, if_neg fun hj => h (by rw [hj]; rfl)]
  rfl

/-- Only the appended bytes of `OUT` are written (R150). -/
theorem State.pixelOperator_read {a : Nat} (h : ¬(s.outLen ≤ a ∧ a < ((s.setPx p).commonTail n k).outLen)) :
    ((s.setPx p).commonTail n k).outMem.read a = s.outMem.read a := by
  rw [State.commonTail_outMem, Memory.read_writeBytes, repeatedPixel_length]
  exact if_neg h

theorem State.cs_eq_ite : s.cs = if s.channels = 4 then 4 else 3 := by
  split
  · exact State.cs_rgba ‹_›
  · exact State.cs_rgb ‹_›

end

/-- Settles O14: the six operators have one shape, and its frame is that of the common tail. -/
theorem operatorFrame : Obligations.OperatorFrame := by
  intro i s t hh he _ ht
  rw [exec_pixelOperator hh he, Host.Outcome.next.injEq] at ht
  subst ht
  refine ⟨s.pixelOperator_rest _ _ _, s.pixelOperator_alpha _ _ _, fun _ => s.pixelOperator_entry _ _ _,
    fun _ => s.pixelOperator_read _ _ _, ?_, ?_⟩
  · rw [State.commonTail_outLen, State.setPx_cs, State.cs_eq_ite]
    rfl
  · have hpos := i.length_pos
    rw [State.commonTail_pos, State.setPx_pos]
    omega

end Sys2Proof.Machine
end

section
/-! O48: in RGB mode the a lanes are never read (10_state.md R21, R26). Two states that differ in them alone are kept
alike by every operation of the block. -/

namespace Sys2Proof.Machine

/-! ## Pixels and states alike but for the a lanes -/

/-- The three colour lanes agree. -/
def SameColour (p q : Pixel) : Prop := p.r = q.r ∧ p.g = q.g ∧ p.b = q.b

theorem sameColour_iff {p q : Pixel} : SameColour p q ↔ p = { q with a := p.a } := by
  cases p; cases q; simp [SameColour]

theorem SameColour.refl (p : Pixel) : SameColour p p := ⟨rfl, rfl, rfl⟩

theorem SameColour.addDeltas {p q : Pixel} (h : SameColour p q) (dr dg db : Byte) :
    SameColour (addDeltas dr dg db p) (addDeltas dr dg db q) := by
  obtain ⟨hr, hg, hb⟩ := h
  simp [SameColour, Machine.addDeltas, hr, hg, hb]

/-- An RGB-mode write takes the colour lanes, whatever it is written over. -/
theorem SameColour.merge {p q : Pixel} (h : SameColour p q) (p' q' : Pixel) :
    SameColour (Mode.rgb.merge p p') (Mode.rgb.merge q q') := h

theorem SameColour.pixelHash {p q : Pixel} (h : SameColour p q) : pixelHash .rgb p = pixelHash .rgb q := by
  obtain ⟨hr, hg, hb⟩ := h
  simp [Machine.pixelHash, Mode.hashAlpha, hr, hg, hb]

theorem SameColour.repeatedPixel {p q : Pixel} (h : SameColour p q) (n : Nat) :
    repeatedPixel n .rgb p = repeatedPixel n .rgb q := by
  obtain ⟨hr, hg, hb⟩ := h
  simp [Machine.repeatedPixel, pixelBytes, hr, hg, hb]

/-- The relation of O48, its frame apart from what it says of the colour lanes. -/
theorem sameButAlpha_iff {s u : State} : SameButAlpha s u ↔
    (∃ p v, s = { u with px := p, hist := v }) ∧ SameColour s.px u.px ∧
      ∀ i : Fin 64, SameColour s.hist[i] u.hist[i] := by
  constructor
  · rintro ⟨hs, hhist⟩
    exact ⟨⟨_, _, hs⟩, sameColour_iff.2 (congrArg State.px hs), fun i => sameColour_iff.2 (hhist i)⟩
  · rintro ⟨⟨p, v, rfl⟩, hpx, hhist⟩
    exact ⟨by rw [← sameColour_iff.1 hpx], fun i => sameColour_iff.1 (hhist i)⟩

/-! ## The states of O48 -/

/-- A state past its header whose runs stay in RGB mode: three channels, not in `HEADER`, no host move pending. -/
def State.pastRgbHeader (s : State) : Prop := s.channels = 3 ∧ s.phase ≠ .header ∧ s.inbox = []

theorem State.pastRgbHeader.mode_rgb {s : State} (h : s.pastRgbHeader) : s.mode = .rgb := by
  obtain ⟨hc, -⟩ := h
  exact State.mode_rgb (by rw [hc]; decide)

/-! ## The block's operations keep two states alike -/

namespace SameButAlpha

variable {s u : State}

theorem mode_eq (h : SameButAlpha s u) : s.mode = u.mode := by
  obtain ⟨⟨p, v, rfl⟩, -, -⟩ := sameButAlpha_iff.1 h
  rfl

theorem setPhase (h : SameButAlpha s u) (p : Phase) : SameButAlpha (s.setPhase p) (u.setPhase p) := by
  obtain ⟨⟨q, v, rfl⟩, hpx, hhist⟩ := sameButAlpha_iff.1 h
  exact sameButAlpha_iff.2 ⟨⟨q, v, rfl⟩, hpx, hhist⟩

theorem raise (h : SameButAlpha s u) (e : DecodeError) (info : Byte) :
    SameButAlpha (s.raise e info) (u.raise e info) := by
  obtain ⟨⟨q, v, rfl⟩, hpx, hhist⟩ := sameButAlpha_iff.1 h
  exact sameButAlpha_iff.2 ⟨⟨q, v, rfl⟩, hpx, hhist⟩

theorem advance (h : SameButAlpha s u) (k : Nat) : SameButAlpha (s.advance k) (u.advance k) := by
  obtain ⟨⟨q, v, rfl⟩, hpx, hhist⟩ := sameButAlpha_iff.1 h
  exact sameButAlpha_iff.2 ⟨⟨q, v, rfl⟩, hpx, hhist⟩

theorem setPx (h : SameButAlpha s u) (hm : s.mode = .rgb) {p q : Pixel} (hpq : SameColour p q) :
    SameButAlpha (s.setPx p) (u.setPx q) := by
  obtain ⟨hrest, -, hhist⟩ := sameButAlpha_iff.1 h
  refine sameButAlpha_iff.2 ⟨?_, ?_, hhist⟩
  · obtain ⟨p', v, rfl⟩ := hrest
    exact ⟨_, v, rfl⟩
  · rw [State.setPx_px, State.setPx_px, ← h.mode_eq, hm]
    exact hpq.merge _ _

theorem hashIndex_eq (h : SameButAlpha s u) (hm : s.mode = .rgb) : s.hashIndex = u.hashIndex := by
  obtain ⟨-, hpx, -⟩ := sameButAlpha_iff.1 h
  rw [State.hashIndex, State.hashIndex, ← h.mode_eq, hm]
  exact hpx.pixelHash

/-- The hash takes the constant 255 for alpha (R148), so both states store the same entry. -/
theorem storeHist (h : SameButAlpha s u) (hm : s.mode = .rgb) : SameButAlpha s.storeHist u.storeHist := by
  obtain ⟨hrest, hpx, hhist⟩ := sameButAlpha_iff.1 h
  refine sameButAlpha_iff.2 ⟨?_, hpx, fun i => ?_⟩
  · obtain ⟨p, v, rfl⟩ := hrest
    exact ⟨p, _, rfl⟩
  · rw [State.storeHist_entry, State.storeHist_entry, ← h.hashIndex_eq hm, ← h.mode_eq, hm]
    split
    · exact hpx.merge _ _
    · exact hhist i

/-- The appended bytes are colour lanes (R150). -/
theorem appendPixels (h : SameButAlpha s u) (hm : s.mode = .rgb) (n : Nat) :
    SameButAlpha (s.appendPixels n) (u.appendPixels n) := by
  obtain ⟨hrest, hpx, hhist⟩ := sameButAlpha_iff.1 h
  refine sameButAlpha_iff.2 ⟨?_, hpx, hhist⟩
  have hbytes : repeatedPixel n s.mode s.px = repeatedPixel n u.mode u.px := by
    rw [← h.mode_eq, hm]
    exact hpx.repeatedPixel n
  rw [State.appendPixels, State.appendPixels, hbytes]
  obtain ⟨p, v, rfl⟩ := hrest
  exact ⟨p, v, rfl⟩

theorem commonTail (h : SameButAlpha s u) (hm : s.mode = .rgb) (n k : Nat) :
    SameButAlpha (s.commonTail n k) (u.commonTail n k) :=
  ((h.storeHist hm).appendPixels hm n).advance k

/-! ## Steps and runs -/

/-- The pixel an operator writes has the same colour lanes in both states. -/
theorem newPixel (h : SameButAlpha s u) (i : Instr) : SameColour (newPixel i s) (newPixel i u) := by
  obtain ⟨-, hpx, hhist⟩ := sameButAlpha_iff.1 h
  cases i with
  | hdr w ht c col => exact hpx
  | endMarker => exact hpx
  | rgb r g b => exact ⟨rfl, rfl, rfl⟩
  | rgba r g b a => exact .refl _
  | index n => exact hhist (entryNumber n)
  | diff rf gf bf => exact hpx.addDeltas _ _ _
  | luma gf rf bf => exact hpx.addDeltas _ _ _
  | run l => exact hpx

theorem exec_endMarker (h : SameButAlpha s u) :
    OutcomeAgree SameButAlpha (exec .endMarker s) (exec .endMarker u) := by
  obtain ⟨⟨p, v, hs⟩, -, -⟩ := sameButAlpha_iff.1 h
  have hlen : s.outLen = u.outLen ∧ s.expectedLen = u.expectedLen := by rw [hs]; exact ⟨rfl, rfl⟩
  rw [Machine.exec_endMarker, Machine.exec_endMarker, hlen.1, hlen.2]
  split
  · exact h.raise _ _
  · exact h.setPhase _

theorem exec_operator (h : SameButAlpha s u) (hm : s.mode = .rgb) {i : Instr}
    (hi : ∀ w ht c col, i ≠ .hdr w ht c col) : OutcomeAgree SameButAlpha (exec i s) (exec i u) := by
  by_cases he : i = .endMarker
  · rw [he]
    exact h.exec_endMarker
  · rw [exec_pixelOperator hi he, exec_pixelOperator hi he]
    exact (h.setPx hm (h.newPixel i)).commonTail hm _ _

theorem blockStep (h : SameButAlpha s u) (hm : s.mode = .rgb) (hp : s.phase ≠ .header) :
    OutcomeAgree SameButAlpha (blockStep s) (blockStep u) := by
  obtain ⟨⟨p, v, hs⟩, -, -⟩ := sameButAlpha_iff.1 h
  have hphase : u.phase = s.phase := by rw [hs]
  have hwindow : u.streamWindow = s.streamWindow := by rw [hs]; rfl
  cases hq : s.phase.isQuiescent with
  | true =>
    rw [blockStep_quiescent hq, blockStep_quiescent (hphase ▸ hq)]
    rfl
  | false =>
    have hbody : s.phase = .body := (Phase.isQuiescent_false.1 hq).resolve_left hp
    rw [blockStep_body hbody, blockStep_body (hphase.trans hbody), hwindow]
    cases hd : decodeOperator s.streamWindow with
    | instr i => exact h.exec_operator hm (decodeOperator_ne_hdr hd)
    | reject r => exact h.raise _ _

theorem step (h : SameButAlpha s u) (hrgb : s.pastRgbHeader) : OutcomeAgree SameButAlpha (step s) (step u) := by
  have ⟨_, hp, hbox⟩ := hrgb
  obtain ⟨⟨p, v, hs⟩, -, -⟩ := sameButAlpha_iff.1 h
  have hbox' : u.inbox = [] := by rw [← hbox, hs]
  rw [step_inbox_nil hbox, step_inbox_nil hbox']
  exact h.blockStep hrgb.mode_rgb hp

end SameButAlpha

theorem State.pastRgbHeader.step {s t : State} (h : s.pastRgbHeader) (hstep : step s = .next t) : t.pastRgbHeader := by
  obtain ⟨hc, hp, hbox⟩ := h
  rw [step_inbox_nil hbox] at hstep
  have hbody : s.phase = .body := (blockStep_phase hstep).resolve_left hp
  rcases operatorStep_cases hbody hstep with
    ⟨p, n, k, rfl, -⟩ | ⟨-, ⟨-, rfl⟩ | ⟨-, rfl⟩⟩ | ⟨-, rfl⟩ | ⟨-, rfl⟩
  · exact ⟨hc, hp, hbox⟩
  · exact ⟨hc, by simp, hbox⟩
  · exact ⟨hc, by simp, hbox⟩
  · exact ⟨hc, by simp, hbox⟩
  · exact ⟨hc, by simp, hbox⟩

/-- Settles O48, by agreement of single steps lifted to runs. -/
theorem rgbModeIgnoresAlphaLanes : Obligations.RgbModeIgnoresAlphaLanes := fun s u k hc hp hbox h =>
  run_agree SameButAlpha State.pastRgbHeader (fun _ _ h hs => h.step hs) (fun _ _ hs => hs.step) k s u h ⟨hc, hp, hbox⟩

end Sys2Proof.Machine
end

section
/-! The byte spaces as data (O41), and the block's step: what it runs (O1, O34), where it ends (O49) and the phase
graph of 10_state.md R44 (O36). -/

namespace Sys2Proof.Machine

/-! ## Byte spaces (20_memory.md R68, R69) -/

/-- In canonical form the first entry is the one with the lowest offset, so reads tell it from the rest. -/
theorem Memory.read_tail_eq_none {c : Host.Cell} {m : Memory} (h : Memory.wf (c :: m) = true) {a : Nat} (ha : a ≤ c.1) :
    Memory.read m a = none :=
  Memory.read_eq_none_of_lt fun d hd => lt_of_le_of_lt ha (Memory.wf_head_lt h d hd)

/-- Equal reads of two canonical spaces put the first entry of the first at the start of the second. -/
theorem Memory.head_le_of_read_eq {c d : Host.Cell} {m m' : Memory} (hd : Memory.wf (d :: m') = true)
    (h : ∀ a, Memory.read (c :: m) a = Memory.read (d :: m') a) : d.1 ≤ c.1 := by
  by_contra hlt
  have hc := h c.1
  rw [Memory.read_cons, if_pos rfl, Memory.read_cons, if_neg (by omega),
    Memory.read_tail_eq_none hd (by omega)] at hc
  simp at hc

theorem Memory.ext_of_wf {m m' : Memory} (hm : m.wf = true) (hm' : m'.wf = true) (h : ∀ a, m.read a = m'.read a) :
    m = m' := by
  induction m generalizing m' with
  | nil =>
    cases m' with
    | nil => rfl
    | cons d m' => simpa [Memory.read_cons] using h d.1
  | cons c m ih =>
    cases m' with
    | nil => simpa [Memory.read_cons] using h c.1
    | cons d m' =>
      have hoff : c.1 = d.1 :=
        le_antisymm (Memory.head_le_of_read_eq hm fun a => (h a).symm) (Memory.head_le_of_read_eq hm' h)
      have hcell : c = d := by
        have hbyte := h c.1
        rw [Memory.read_cons, if_pos rfl, Memory.read_cons, if_pos hoff.symm] at hbyte
        exact Prod.ext hoff (Option.some.inj hbyte)
      subst hcell
      have htail : ∀ a, Memory.read m a = Memory.read m' a := by
        intro a
        by_cases ha : c.1 = a
        · rw [Memory.read_tail_eq_none hm ha.ge, Memory.read_tail_eq_none hm' ha.ge]
        · simpa [Memory.read_cons, ha] using h a
      rw [ih (Memory.wf_tail hm) (Memory.wf_tail hm') htail]

/-- Settles O41, by induction on the first space: its first entry is the other's first entry. -/
theorem canonicalMemoriesAreEqualData : Obligations.CanonicalMemoriesAreEqualData :=
  fun _ _ hm hm' h => Memory.ext_of_wf hm hm' h

/-! ## What a step runs (R39, R140) -/

theorem step_wait_busy {s : State} {moves : List HostMove} (h : s.inbox = .wait :: moves)
    (hq : s.phase.isQuiescent = false) : step s = blockStep (s.setInbox moves) := by
  rw [step_wait h, waitStep, State.setInbox_phase, if_neg (by simp [hq])]

theorem step_wait_quiescent {s : State} {moves : List HostMove} (h : s.inbox = .wait :: moves)
    (hq : s.phase.isQuiescent = true) : step s = .next (s.setInbox moves) := by
  rw [step_wait h, waitStep, State.setInbox_phase, if_pos hq]

/-- In a busy phase a step runs what the enabled fetch decodes. -/
theorem blockStep_busy {s : State} (hq : s.phase.isQuiescent = false) {i : Instr} (hd : s.fetch = .instr i) :
    blockStep s = exec i s := by
  rw [blockStep, if_neg (by simp [hq]), hd, runDecoded_instr]

theorem step_of_fetch {s : State} {i : Instr} (moves : List HostMove) (hbox : s.inbox = [])
    (hq : s.phase.isQuiescent = false) (hd : s.fetch = .instr i) :
    step s = exec i s ∧ step { s with inbox := .wait :: moves } = exec i { s with inbox := moves } := by
  refine ⟨(step_inbox_nil hbox).trans (blockStep_busy hq hd), ?_⟩
  rw [step_wait_busy (s := { s with inbox := .wait :: moves }) rfl hq]
  exact blockStep_busy (s := { s with inbox := moves }) hq hd

/-- Settles O1: in either busy phase the step runs what its fetch decodes. -/
theorem stepRunsDecodedInstruction : Obligations.StepRunsDecodedInstruction := by
  intro s i moves hbox
  constructor
  · intro hp hd
    exact step_of_fetch moves hbox (Phase.isQuiescent_false.2 (.inr hp)) ((State.fetch_body hp).trans hd)
  · intro hp hd
    exact step_of_fetch moves hbox (Phase.isQuiescent_false.2 (.inl hp)) ((State.fetch_header hp).trans hd)

/-- Settles O34. -/
theorem quiescentBlockHasNoStep : Obligations.QuiescentBlockHasNoStep := fun s hp hbox => by
  rw [step_inbox_nil hbox, blockStep_quiescent (Phase.isQuiescent_true.2 hp)]

/-! ## Where a decode ends (R45) -/

/-- The block enters `DONE` by END's one state only. -/
theorem blockStep_done {s t : State} (h : blockStep s = .next t) (ht : t.phase = .done) :
    s.markerAtPos ∧ s.outLen = s.expectedLen ∧ t = s.setPhase .done := by
  rcases blockStep_phase h with hp | hp
  · rcases headerStep_cases hp h with
      rfl | rfl | ⟨w, ht, c, col, -, ⟨-, -, rfl⟩ | ⟨-, -, rfl⟩ | ⟨-, -, -, rfl⟩⟩ <;> simp at ht
  · rcases operatorStep_cases hp h with
      ⟨p, n, k, rfl, -⟩ | ⟨hw, ⟨hlen, rfl⟩ | ⟨-, rfl⟩⟩ | ⟨-, rfl⟩ | ⟨-, rfl⟩
    · simp [hp] at ht
    · exact ⟨s.streamWindow_marker.1 hw, hlen, rfl⟩
    · simp at ht
    · simp at ht
    · simp at ht

/-- Settles O49: only END reaches `DONE`, and it changes `PHASE` alone. -/
theorem doneStandsAtMarker : Obligations.DoneStandsAtMarker := by
  intro s t hbox hstep ht
  rw [step_inbox_nil hbox] at hstep
  obtain ⟨hmarker, hlen, rfl⟩ := blockStep_done hstep ht
  exact ⟨hmarker, hlen, rfl, rfl, rfl, rfl⟩

/-! ## The phase graph (R44) -/

theorem blockEdge_header {s t : State} (hp : s.phase = .header) : BlockEdge s t ↔
    (t.phase = .body ∧ t.hdrValid = true) ∨
      (t.phase = .error ∧ (t.errCode = some .tooShort ∨ t.errCode = some .badMagic ∨ t.errCode = some .invalidChannels ∨
        t.errCode = some .dimensionsTooLarge)) := by
  rw [BlockEdge, hp]

theorem blockEdge_body {s t : State} (hp : s.phase = .body) : BlockEdge s t ↔
    (t.phase = .body ∧ s.pos < t.pos) ∨
      (t.phase = .done ∧ s.markerAtPos ∧ s.outLen = s.expectedLen) ∨
      (t.phase = .error ∧ (t.errCode = some .sizeMismatch ∨ t.errCode = some .unterminatedStream ∨
        t.errCode = some .truncatedOperatorStream)) := by
  rw [BlockEdge, hp]

theorem headerStep_edge {s t : State} (hp : s.phase = .header) (h : blockStep s = .next t) : BlockEdge s t := by
  rw [blockEdge_header hp]
  rcases headerStep_cases hp h with
    rfl | rfl | ⟨w, ht, c, col, -, ⟨-, -, rfl⟩ | ⟨-, -, rfl⟩ | ⟨-, -, -, rfl⟩⟩ <;> simp

theorem operatorStep_edge {s t : State} (hp : s.phase = .body) (h : blockStep s = .next t) : BlockEdge s t := by
  rw [blockEdge_body hp]
  rcases operatorStep_cases hp h with
    ⟨p, n, k, rfl, -⟩ | ⟨hw, ⟨hlen, rfl⟩ | ⟨-, rfl⟩⟩ | ⟨-, rfl⟩ | ⟨-, rfl⟩
  · exact .inl ⟨hp, by simp; omega⟩
  · exact .inr (.inl ⟨rfl, s.streamWindow_marker.1 hw, hlen⟩)
  · simp
  · simp
  · simp

theorem blockStep_edge {s t : State} (h : blockStep s = .next t) : BlockEdge s t :=
  (blockStep_phase h).elim (headerStep_edge · h) (operatorStep_edge · h)

theorem State.start_phase (s : State) : s.start.phase = if s.phase.isQuiescent = true then .header else s.phase := by
  cases hq : s.phase.isQuiescent with
  | true => rw [State.start_quiescent hq]; rfl
  | false => rw [State.start_busy hq]; rfl

theorem hostMove_ctrl_phase {s t : State} {v : Nat} (h : hostMove (.writeReg .ctrl v) s = .next t) :
    t.phase = if s.phase.isQuiescent = true ∧ v % 2 = 1 then .header else s.phase := by
  rw [hostMove_ctrl, Host.Outcome.next.injEq] at h
  subst h
  by_cases hv : v % 2 = 1
  · rw [if_pos hv, State.start_phase]
    simp [hv]
  · simp [hv]

/-- Settles O36: the block's edges, and one case for each kind of host move. -/
theorem phaseGraph : Obligations.PhaseGraph := by
  intro s t h
  refine ⟨fun hbox => ?_, fun moves hbox => ⟨fun hq => ?_, fun hq => ?_⟩, fun moves hbox => ?_, fun v moves hbox => ?_,
    fun r v moves hr hbox => ?_, fun a b moves hbox => ?_⟩
  · exact blockStep_edge (step_inbox_nil hbox ▸ h)
  · rw [step_wait_quiescent hbox hq, Host.Outcome.next.injEq] at h
    rw [← h, State.setInbox_phase]
  · rw [step_wait_busy hbox hq] at h
    exact blockStep_edge (s := s.setInbox moves) h
  · rw [step_move hbox (by simp), hostMove, Host.Outcome.next.injEq] at h
    rw [← h, State.powerOn_phase]
  · rw [step_move hbox (by simp)] at h
    exact hostMove_ctrl_phase (s := s.setInbox moves) h
  · rw [step_move hbox (by simp)] at h
    exact hostMove_writeReg_phase (s := s.setInbox moves) hr h
  · rw [step_move hbox (by simp)] at h
    rw [hostMove_writeIn_next h, State.writeInput_phase, State.setInbox_phase]

end Sys2Proof.Machine
end

section
/-! The host's side of 10_state.md: power-on reset (O28, O29), START (O30), register writes (O31, O32) and the register
numbers (O35). -/

namespace Sys2Proof.Machine

/-! ## Power-on reset (R42) -/

theorem hostMove_powerOn (s : State) : hostMove .powerOn s = .next s.powerOn := rfl

/-- Every register but the parameter's reads 0 after power-on reset (the reset column of R36). -/
theorem hostRead_powerOn (s : State) {r : Reg} (hr : r ≠ .maxOutBytes) : hostRead r s.powerOn = 0 := by
  cases r with
  | maxOutBytes => exact absurd rfl hr
  | _ => rfl

/-- Settles O29. -/
theorem powerOnFromAnyState : Obligations.PowerOnFromAnyState := by
  intro s moves hbox
  refine ⟨(s.setInbox moves).powerOn, ?_, rfl, rfl, rfl, fun r hr => hostRead_powerOn _ hr⟩
  rw [step_move hbox (by simp), hostMove_powerOn]

/-- Settles O28: `State.reset` is what power-on leaves of itself. -/
theorem powerOnResetValues : Obligations.PowerOnResetValues := by
  have hread : ∀ r : Reg, r ≠ .maxOutBytes → hostRead r State.reset = 0 := fun _ => hostRead_powerOn State.reset
  refine ⟨?_, ?_, ?_, ?_, ?_, ?_, ?_, ?_, ?_, ?_, ?_, ?_, ?_, rfl, rfl⟩
  all_goals exact hread _ (by simp)

/-! ## Writes of `CTRL` (R41, R260) -/

theorem step_ctrl {s : State} {v : Nat} {moves : List HostMove} (hbox : s.inbox = .writeReg .ctrl v :: moves) :
    step s = .next (if v % 2 = 1 then (s.setInbox moves).start else s.setInbox moves) := by
  rw [step_move hbox (by simp), hostMove_ctrl]

theorem step_ctrl_busy {s : State} {v : Nat} {moves : List HostMove} (hbox : s.inbox = .writeReg .ctrl v :: moves)
    (hp : s.phase = .header ∨ s.phase = .body) : step s = .next (s.setInbox moves) := by
  rw [step_ctrl hbox, State.start_busy (s := s.setInbox moves) (Phase.isQuiescent_false.2 hp), ite_self]

/-- Settles O30: START is `State.startDecode` in a quiescent phase and nothing in a busy one. -/
theorem startWritesDecodeState : Obligations.StartWritesDecodeState := by
  intro s v moves hbox hv
  refine ⟨step_ctrl_busy hbox, fun hp => ⟨s.epoch + 1, ?_⟩⟩
  rw [step_ctrl hbox, if_pos hv, State.start_quiescent (s := s.setInbox moves) (Phase.isQuiescent_true.2 hp)]
  rfl

/-- Settles O31: one case for each kind of ignored write. -/
theorem ignoredRegisterWrites : Obligations.IgnoredRegisterWrites := by
  intro s r v moves hbox hwrite
  rcases hwrite with ⟨rfl, hp⟩ | ⟨rfl, hv⟩ | ⟨hctrl, hin⟩
  · exact step_ctrl_busy hbox hp
  · rw [step_ctrl hbox, if_neg (by omega)]
    rfl
  · rw [step_move hbox (by simp), hostMove_readOnly _ _ hctrl hin]
    rfl

/-! ## The input (R35, R37) -/

/-- Settles O32: the two writes the host has while the block is quiescent. -/
theorem quiescentHostWritesInput : Obligations.QuiescentHostWritesInput := by
  intro s moves hq
  constructor
  · intro n hn hbox
    rw [step_move hbox (by simp), hostMove_writeInLen (s := s.setInbox moves) hq hn]
    rfl
  · intro a b ha hbox
    refine ⟨(s.setInbox moves).writeInput a b, ?_, rfl, Memory.read_write_self _ _ _, fun k hk =>
      Memory.read_write_other _ _ hk.symm⟩
    rw [step_move hbox (by simp), hostMove_writeIn (s := s.setInbox moves) b hq ha]

/-! ## Register numbers (R30, R36) -/

/-- The register of a number, the other way round than `Reg.number`. -/
def registerOfNumber : Nat → Reg
  | 0 => .ctrl
  | 1 => .inLen
  | 2 => .phase
  | 3 => .errCode
  | 4 => .errInfo
  | 5 => .hdrValid
  | 6 => .width
  | 7 => .height
  | 8 => .channels
  | 9 => .colorspace
  | 10 => .expectedLen
  | 11 => .outLen
  | 12 => .pos
  | _ => .maxOutBytes

theorem registerOfNumber_number (r : Reg) : registerOfNumber r.number = r := by cases r <;> rfl

theorem Reg.number_le (r : Reg) : r.number ≤ 13 := by cases r <;> decide

theorem Phase.code_le (p : Phase) : p.code ≤ 4 := by cases p <;> decide

/-- Settles O35: the numbering has a left inverse. -/
theorem registerNumbersDistinct : Obligations.RegisterNumbersDistinct :=
  ⟨Function.LeftInverse.injective registerOfNumber_number, Reg.number_le, fun s => s.phase.code_le⟩

end Sys2Proof.Machine
end

section
/-! The two byte spaces (20_memory.md): the input bytes a step fetches (O2), the numbers of the header (O22), and what
neither the host (O33) nor the block (O42) writes during a decode. -/

namespace Sys2Proof.Machine

/-! ## Reading the input (R60, R65) -/

/-- A window holds every byte the host wrote, at its place. -/
theorem State.inBytes_listed {s : State} {a n j : Nat} {b : Byte} (hj : j < n) (h : s.inMem.read (a + j) = some b) :
    (s.inBytes a n)[j]? = some b := by
  rw [State.inBytes_getElem? s hj, State.inByte_listed h]

/-- Settles O2: both windows are `State.inBytes`, cut off at `IN_LEN`. -/
theorem fetchWindowsHoldInputBytes : Obligations.FetchWindowsHoldInputBytes := by
  intro s
  refine ⟨s.streamWindow_length, s.headerWindow_length, fun j b hj hin hread => ?_, fun j b hj hin hread => ?_⟩
  · exact State.inBytes_listed (by omega) hread
  · exact State.inBytes_listed (by omega) (by rwa [Nat.zero_add])

/-- Settles O22: four bytes make less than 2^32. -/
theorem headerNumbersAreBigEndian : Obligations.HeaderNumbersAreBigEndian := by
  intro b0 b1 b2 b3
  have hlt : b0.toNat * 2 ^ 24 + b1.toNat * 2 ^ 16 + b2.toNat * 2 ^ 8 + b3.toNat < 2 ^ 32 := by
    have := b0.isLt
    have := b1.isLt
    have := b2.isLt
    have := b3.isLt
    omega
  rw [be32, BitVec.toNat_ofNat, Nat.mod_eq_of_lt hlt]

/-! ## The host during a decode (R70, R256) -/

/-- Settles O33: either move is refused in a busy phase. -/
theorem decodeRefusesInputWrites : Obligations.DecodeRefusesInputWrites := by
  intro s m moves hp hbox hwrite
  have hq : (s.setInbox moves).phase.isQuiescent = false := Phase.isQuiescent_false.2 hp
  rcases hwrite with ⟨a, b, rfl⟩ | ⟨n, rfl⟩
  · rw [step_move hbox (by simp), hostMove_writeIn_busy a b hq]
  · rw [step_move hbox (by simp), hostMove_writeInLen_busy n hq]

/-! ## The block (R40, R66, R74) -/

/-- From `s` to `t` the input and the parameters stay, and `OUT` at most grows at its end. -/
structure AppendsOnly (s t : State) : Prop where
  inMem : t.inMem = s.inMem
  inLen : t.inLen = s.inLen
  maxOutBytes : t.maxOutBytes = s.maxOutBytes
  inLenMax : t.inLenMax = s.inLenMax
  outLen : s.outLen ≤ t.outLen
  out : ∀ a, (a < s.outLen ∨ t.outLen ≤ a) → t.outMem.read a = s.outMem.read a

namespace AppendsOnly

variable {s t u : State}

theorem trans (h : AppendsOnly s t) (h' : AppendsOnly t u) : AppendsOnly s u where
  inMem := h'.inMem.trans h.inMem
  inLen := h'.inLen.trans h.inLen
  maxOutBytes := h'.maxOutBytes.trans h.maxOutBytes
  inLenMax := h'.inLenMax.trans h.inLenMax
  outLen := h.outLen.trans h'.outLen
  out a ha := by
    have hle := h.outLen
    have hle' := h'.outLen
    rw [h'.out a (by omega), h.out a (by omega)]

/-! ### The block's operations -/

theorem raise (s : State) (e : DecodeError) (info : Byte) : AppendsOnly s (s.raise e info) :=
  ⟨rfl, rfl, rfl, rfl, le_rfl, fun _ _ => rfl⟩

theorem setPhase (s : State) (p : Phase) : AppendsOnly s (s.setPhase p) :=
  ⟨rfl, rfl, rfl, rfl, le_rfl, fun _ _ => rfl⟩

theorem publishHeader (s : State) (w h : U32) (c col : Byte) : AppendsOnly s (s.publishHeader w h c col) :=
  ⟨rfl, rfl, rfl, rfl, le_rfl, fun _ _ => rfl⟩

theorem enterBody (s : State) : AppendsOnly s s.enterBody :=
  ⟨rfl, rfl, rfl, rfl, le_rfl, fun _ _ => rfl⟩

/-- A pixel operator writes `OUT` from `OUT_LEN` to the new `OUT_LEN` (R150). -/
theorem pixelOperator (s : State) (p : Pixel) (n k : Nat) : AppendsOnly s ((s.setPx p).commonTail n k) where
  inMem := rfl
  inLen := rfl
  maxOutBytes := rfl
  inLenMax := rfl
  outLen := Nat.le_add_right _ _
  out _ ha := s.pixelOperator_read p n k (by omega)

/-! ### Its step -/

theorem headerStep (hp : s.phase = .header) (h : blockStep s = .next t) : AppendsOnly s t := by
  rcases headerStep_cases hp h with
    rfl | rfl | ⟨w, ht, c, col, -, ⟨-, -, rfl⟩ | ⟨-, -, rfl⟩ | ⟨-, -, -, rfl⟩⟩
  · exact raise s _ _
  · exact raise s _ _
  · exact raise s _ _
  · exact (publishHeader s w ht c col).trans (raise _ _ _)
  · exact (publishHeader s w ht c col).trans (enterBody _)

theorem operatorStep (hp : s.phase = .body) (h : blockStep s = .next t) : AppendsOnly s t := by
  rcases operatorStep_cases hp h with
    ⟨p, n, k, rfl, -⟩ | ⟨-, ⟨-, rfl⟩ | ⟨-, rfl⟩⟩ | ⟨-, rfl⟩ | ⟨-, rfl⟩
  · exact pixelOperator s p n k
  · exact setPhase s _
  · exact raise s _ _
  · exact raise s _ _
  · exact raise s _ _

theorem blockStep (h : blockStep s = .next t) : AppendsOnly s t :=
  (blockStep_phase h).elim (headerStep · h) (operatorStep · h)

end AppendsOnly

/-- Settles O42: the header step and the operator step append to `OUT` and write nothing else of the memory. -/
theorem blockNeverRewritesMemory : Obligations.BlockNeverRewritesMemory := by
  intro s t hbox hstep
  rw [step_inbox_nil hbox] at hstep
  have h := AppendsOnly.blockStep hstep
  exact ⟨h.inMem, h.inLen, h.maxOutBytes, h.inLenMax, h.outLen, h.out⟩

end Sys2Proof.Machine
end

section
/-! The encoding (30_encoding.md): written words (O3), the opcode map in its order (O4), and the two directions of
"decode and encode agree", for the operators (O5, O7) and for the header record (O6, O7). -/

namespace Sys2Proof

/-! ## The end marker at the start of the bytes (R102, R106) -/

theorem take_eq_endMarkerBytes {bs : List Byte} : bs.take 8 = endMarkerBytes ↔ ∃ more, bs = endMarkerBytes ++ more :=
  calc bs.take 8 = endMarkerBytes
    _ ↔ endMarkerBytes <+: bs := by rw [List.prefix_iff_eq_take]; exact eq_comm
    _ ↔ ∃ more, bs = endMarkerBytes ++ more := exists_congr fun _ => eq_comm

/-! ## From an instruction to its bytes and back -/

/-- An operator's encoding is a tag byte and operands that the dispatch gives back, whatever follows (R90 to R101). -/
theorem decodeTag_encode {i : Instr} (rest : List Byte) (hwf : i.wf = true) (hh : ∀ w h c col, i ≠ .hdr w h c col)
    (he : i ≠ .endMarker) : ∃ op operands, encode i ++ rest = op :: operands ∧ decodeTag op operands = .instr i := by
  cases i with
  | hdr w h c col => exact absurd rfl (hh w h c col)
  | endMarker => exact absurd rfl he
  | rgb r g b => exact ⟨_, _, rfl, decodeTag_rgb _⟩
  | rgba r g b a => exact ⟨_, _, rfl, decodeTag_rgba _⟩
  | index n => exact ⟨_, _, rfl, by rw [decodeTag_index (by simp), payloadOf_tagByte]⟩
  | diff rf gf bf => exact ⟨_, _, rfl, by rw [decodeTag_diff (by simp)]; simp⟩
  | luma gf rf bf => exact ⟨_, _, rfl, by rw [decodeTag_luma (by simp)]; simp [decodeLuma]⟩
  | run l =>
    have hl : l.toNat ≤ 61 := of_decide_eq_true hwf
    exact ⟨_, _, rfl, by rw [decodeTag_run (by simp) (by simpa using hl), payloadOf_tagByte]⟩

/-- Settles O5: past the marker test the tag byte is dispatched. -/
theorem operatorDecodeEncodeAgree : Obligations.OperatorDecodeEncodeAgree := by
  intro i rest hwf hh hmarker
  by_cases he : i = .endMarker
  · subst he
    exact decodeOperator_endMarker (take_eq_endMarkerBytes.2 ⟨rest, rfl⟩)
  · obtain ⟨op, operands, hbytes, hdecode⟩ := decodeTag_encode rest hwf hh he
    have hne : (op :: operands).take 8 ≠ endMarkerBytes := hbytes ▸ hmarker he
    rw [hbytes, decodeOperator_cons hne, hdecode]

/-- The fields after the magic (R91). -/
theorem decodeHeaderFields_be32Bytes (w h : U32) (c col : Byte) (rest : List Byte) :
    decodeHeaderFields (be32Bytes w ++ be32Bytes h ++ [c, col] ++ rest) = .instr (.hdr w h c col) := by
  simp [decodeHeaderFields, be32Bytes, be32_byteOfU32]

/-- Settles O6: the record passes both tests, and a header number is put together again from its four bytes. -/
theorem headerDecodeEncodeAgree : Obligations.HeaderDecodeEncodeAgree := by
  intro w h c col rest
  have hlen : ¬(encode (.hdr w h c col) ++ rest).length < 14 := by simp [Instr.length]
  have hmagic : (encode (.hdr w h c col) ++ rest).take 4 = magicBytes := rfl
  rw [decodeHeader, if_neg hlen, if_neg (not_not.2 hmagic)]
  exact decodeHeaderFields_be32Bytes w h c col rest

/-! ## From the bytes to an instruction and back -/

theorem be32Bytes_be32 (b0 b1 b2 b3 : Byte) : be32Bytes (be32 b0 b1 b2 b3) = [b0, b1, b2, b3] := by
  obtain ⟨h3, h2, h1, h0⟩ := byteOfU32_be32 b0 b1 b2 b3
  rw [be32Bytes, h3, h2, h1, h0]

theorem tagByte_payloadOf {op : Byte} {t : BitVec 2} (h : tagOf op = t) : tagByte t (payloadOf op) = op := by
  rw [← h, tagByte_tagOf_payloadOf]

/-- Whatever the dispatch answers is well formed, and its encoding is the tag byte and the operands it used. -/
theorem encode_of_decodeTag {op : Byte} {operands : List Byte} {i : Instr} (h : decodeTag op operands = .instr i) :
    i.wf = true ∧ ∃ rest, op :: operands = encode i ++ rest := by
  rcases decodeTag_cases h with ⟨ht, rfl⟩ | ⟨ht, rfl⟩ | ⟨next, more, ht, rfl, rfl⟩ | ⟨r, g, b, more, rfl, rfl, rfl⟩ |
    ⟨r, g, b, a, more, rfl, rfl, rfl⟩ | ⟨ht, hl, rfl⟩
  · exact ⟨rfl, operands, by rw [encode, tagByte_payloadOf ht, List.singleton_append]⟩
  · exact ⟨rfl, operands, by rw [encode, diffPayload_fields, tagByte_payloadOf ht, List.singleton_append]⟩
  · exact ⟨rfl, more, by rw [encode, lumaByte_nibbles, tagByte_payloadOf ht]; rfl⟩
  · exact ⟨rfl, more, rfl⟩
  · exact ⟨rfl, more, rfl⟩
  · exact ⟨decide_eq_true hl, operands, by rw [encode, tagByte_payloadOf ht, List.singleton_append]⟩

theorem encode_of_decodeOperator {bs : List Byte} {i : Instr} (h : decodeOperator bs = .instr i) :
    i.wf = true ∧ ∃ rest, bs = encode i ++ rest := by
  rcases decodeOperator_cases h with ⟨hmarker, rfl⟩ | ⟨-, op, operands, rfl, hdecode⟩
  · exact ⟨rfl, take_eq_endMarkerBytes.1 hmarker⟩
  · exact encode_of_decodeTag hdecode

/-- Whatever the field decoder answers is a header record, and the bytes start with its encoding less the magic. -/
theorem encode_of_decodeHeaderFields {bs : List Byte} {i : Instr} (h : decodeHeaderFields bs = .instr i) :
    i.wf = true ∧ ∃ rest, magicBytes ++ bs = encode i ++ rest := by
  unfold decodeHeaderFields at h
  split at h
  · next rest =>
    cases h
    exact ⟨rfl, rest, by simp [encode, be32Bytes_be32]⟩
  · cases h

theorem encode_of_decodeHeader {bs : List Byte} {i : Instr} (h : decodeHeader bs = .instr i) :
    i.wf = true ∧ ∃ rest, bs = encode i ++ rest := by
  unfold decodeHeader at h
  split at h
  · cases h
  split at h
  · cases h
  next hmagic =>
    have hbs : magicBytes ++ bs.drop 4 = bs := by rw [← not_not.1 hmagic, List.take_append_drop]
    rw [← hbs]
    exact encode_of_decodeHeaderFields h

/-- Settles O7: each decoder keeps every bit of the bytes it reads. -/
theorem decodedInstructionReencodes : Obligations.DecodedInstructionReencodes := fun _ _ h =>
  h.elim encode_of_decodeOperator encode_of_decodeHeader

/-! ## The opcode map (R103) -/

/-- The payload is what the first byte exceeds any multiple of 64 below it by, in six bits. -/
theorem payloadOf_eq_sub {op : Byte} {k : Nat} (h : 64 * k ≤ op.toNat) :
    payloadOf op = BitVec.ofNat 6 (op.toNat - 64 * k) := by
  apply BitVec.eq_of_toNat_eq
  rw [payloadOf_toNat, BitVec.toNat_ofNat]
  exact (Nat.sub_mul_mod h).symm

/-- Settles O4: the marker test comes first, then the ranges of the first byte are the tags and payloads. -/
theorem dispatchFollowsOpcodeMap : Obligations.DispatchFollowsOpcodeMap := by
  refine ⟨fun rest => decodeOperator_endMarker rfl, decodeOperator_nil, fun op rest hmarker => ?_⟩
  rw [decodeOperator_cons (mt take_eq_endMarkerBytes.1 hmarker)]
  refine ⟨fun hi => ?_, fun lo hi => ?_, fun lo hi next more hrest => ?_, fun lo hi => ?_,
    fun hop r g b more hrest => ?_, fun hop r g b a more hrest => ?_⟩
  · rw [decodeTag_index ((tagOf_eq_zero op).2 hi), payloadOf_eq_sub (k := 0) (Nat.zero_le _)]
    rfl
  · rw [decodeTag_diff ((tagOf_eq_one op).2 ⟨lo, hi⟩), diffRed_eq, diffGreen_eq, diffBlue_eq]
  · rw [decodeTag_luma ((tagOf_eq_two op).2 ⟨lo, hi⟩), hrest, decodeLuma, payloadOf_eq_sub (k := 2) lo, highNibble_eq,
      lowNibble_eq]
  · have hpayload := payloadOf_eq_sub (k := 3) lo
    have hle : (payloadOf op).toNat ≤ 61 := by rw [payloadOf_toNat]; omega
    rw [decodeTag_run ((tagOf_eq_three op).2 lo) hle, hpayload]
  · rw [hop, hrest, decodeTag_rgb, decodeRgb]
  · rw [hop, hrest, decodeTag_rgba, decodeRgba]

/-- Settles O3: eight closed words, run through the decoders. -/
theorem decoderReadsWrittenWords : Obligations.DecoderReadsWrittenWords := by
  unfold Obligations.DecoderReadsWrittenWords
  decide

end Sys2Proof
end

section
/-! The header step: what HDR does (O20) and the whole step from the bytes of `IN` (O21), 40_header.md R120 to R128. -/

namespace Sys2Proof.Machine

/-! ## The machine's updates, in the terms of the statements -/

/-- `raise` is R218 written out when a byte is given for `InvalidChannels` only (R210). -/
theorem State.raise_eq_raised (s : State) {e : DecodeError} {info : Byte} (h : e = .invalidChannels ∨ info = 0) :
    s.raise e info = raised e info s := by
  have hinfo : (if e = .invalidChannels then info else 0) = info := by
    rcases h with h | h <;> simp [h]
  rw [State.raise, hinfo, raised]

theorem State.publishHeader_eq_withHeader (s : State) (w h : U32) (c col : Byte) :
    s.publishHeader w h c col = withHeader w h c col s := rfl

/-! ## HDR (R120) -/

/-- Settles O20, along HDR's two tests. -/
theorem hdrPublishesHeader : Obligations.HdrPublishesHeader := by
  intro s w h c col
  have hlegal : c = 3 ∨ c = 4 → ¬(c ≠ 3 ∧ c ≠ 4) := by tauto
  refine ⟨fun h3 h4 => ?_, fun hc hbig => ?_, fun hc hfits => ?_⟩
  · rw [exec_hdr, if_pos ⟨h3, h4⟩, State.raise_eq_raised s (.inl rfl)]
  · rw [exec_hdr, if_neg (hlegal hc), headerProduct, if_pos hbig, State.raise_eq_raised _ (.inr rfl),
      State.publishHeader_eq_withHeader]
  · rw [exec_hdr, if_neg (hlegal hc), headerProduct, if_neg (Nat.not_lt.2 hfits),
      State.publishHeader_eq_withHeader, State.enterBody]

/-! ## The header record in `IN` (R91, R121 to R123) -/

theorem State.headerWindow_magic {s : State} (h : 14 ≤ s.inLen) :
    s.headerWindow.take 4 = magicBytes ↔ s.magicGood := by
  simp [State.headerWindow_fourteen h, magicBytes, State.magicGood]

theorem decodeHeader_short {s : State} (h : s.inLen < 14) : decodeHeader s.headerWindow = .reject .tooShort := by
  rw [decodeHeader, if_pos (by rw [State.headerWindow_length]; omega)]

theorem decodeHeader_long {s : State} (h : 14 ≤ s.inLen) : decodeHeader s.headerWindow =
    if s.headerWindow.take 4 ≠ magicBytes then .reject .badMagic else decodeHeaderFields (s.headerWindow.drop 4) := by
  rw [decodeHeader, if_neg (by rw [State.headerWindow_length]; omega)]

theorem decodeHeader_wrongMagic {s : State} (h : 14 ≤ s.inLen) (hm : ¬s.magicGood) :
    decodeHeader s.headerWindow = .reject .badMagic := by
  rw [decodeHeader_long h, if_pos (mt (State.headerWindow_magic h).1 hm)]

/-- The fields stand at offsets 4, 8, 12 and 13 (R91). -/
theorem decodeHeader_fields {s : State} (h : 14 ≤ s.inLen) (hm : s.magicGood) :
    decodeHeader s.headerWindow = .instr (.hdr (s.inU32 4) (s.inU32 8) (s.inByte 12) (s.inByte 13)) := by
  rw [decodeHeader_long h, if_neg (not_not.2 ((State.headerWindow_magic h).2 hm)), State.headerWindow_fourteen h]
  rfl

/-! ## The header step -/

theorem step_header {s : State} (hp : s.phase = .header) (hbox : s.inbox = []) :
    step s = runDecoded (decodeHeader s.headerWindow) s := by
  rw [step_inbox_nil hbox, blockStep_header hp]

theorem step_header_reject {s : State} (hp : s.phase = .header) (hbox : s.inbox = []) {r : DecodeReject}
    (hd : decodeHeader s.headerWindow = .reject r) : step s = .next (raised (rejectError r) 0 s) := by
  rw [step_header hp hbox, hd, runDecoded_reject, State.raise_eq_raised s (.inr rfl)]

/-- With fourteen bytes and the magic, the step is HDR's meaning on the fields. -/
theorem step_header_fields {s : State} (hp : s.phase = .header) (hbox : s.inbox = []) (h : 14 ≤ s.inLen)
    (hm : s.magicGood) : step s = exec (.hdr (s.inU32 4) (s.inU32 8) (s.inByte 12) (s.inByte 13)) s := by
  rw [step_header hp hbox, decodeHeader_fields h hm, runDecoded_instr]

/-- Settles O21: the first two tests are the decoder's, the other two HDR's (O20). -/
theorem headerStepTestsInOrder : Obligations.HeaderStepTestsInOrder := by
  intro s hp hbox
  obtain ⟨hchannels, hbig, hfits⟩ := hdrPublishesHeader s (s.inU32 4) (s.inU32 8) (s.inByte 12) (s.inByte 13)
  refine ⟨fun hlen => ?_, fun hlen hm => ?_, fun hlen hm h3 h4 => ?_, fun hlen hm hc hlim => ?_,
    fun hlen hm hc hlim => ?_⟩
  · exact step_header_reject hp hbox (decodeHeader_short hlen)
  · exact step_header_reject hp hbox (decodeHeader_wrongMagic hlen hm)
  · exact (step_header_fields hp hbox hlen hm).trans (hchannels h3 h4)
  · exact (step_header_fields hp hbox hlen hm).trans (hbig hc hlim)
  · exact (step_header_fields hp hbox hlen hm).trans (hfits hc hlim)

end Sys2Proof.Machine
end

section
/-! O47: `COLORSPACE` affects nothing else (40_header.md R126). First, when two states step alike under any relation. -/

namespace Sys2Proof.Machine

/-! ## Related states step alike -/

section
variable {R : State → State → Prop} {s u : State}

theorem OutcomeAgree.ite {p : Prop} [Decidable p] {x y x' y' : Host.Outcome State Fault Refusal}
    (hthen : OutcomeAgree R x y) (helse : OutcomeAgree R x' y') :
    OutcomeAgree R (if p then x else x') (if p then y else y') := by
  split
  · exact hthen
  · exact helse

theorem State.inLenAllowed_congr (hmax : s.inLenMax = u.inLenMax) (n : Nat) :
    s.inLenAllowed n = u.inLenAllowed n := by
  simp only [State.inLenAllowed, hmax]

theorem hostMove_writeIn_agree (hphase : s.phase = u.phase) (hmax : s.inLenMax = u.inLenMax) (a : Nat) (b : Byte)
    (h : R (s.writeInput a b) (u.writeInput a b)) :
    OutcomeAgree R (hostMove (.writeIn a b) s) (hostMove (.writeIn a b) u) := by
  simp only [hostMove, hostWriteIn, hphase, State.inLenAllowed_congr hmax]
  exact .ite (.ite h rfl) rfl

theorem hostMove_writeInLen_agree (hphase : s.phase = u.phase) (hmax : s.inLenMax = u.inLenMax) (n : Nat)
    (h : R (s.setInLen n) (u.setInLen n)) :
    OutcomeAgree R (hostMove (.writeReg .inLen n) s) (hostMove (.writeReg .inLen n) u) := by
  simp only [hostMove, hostWriteReg, hostWriteInLen, hphase, State.inLenAllowed_congr hmax]
  exact .ite (.ite h rfl) rfl

theorem State.start_agree (hphase : s.phase = u.phase) (h : R s u) (hstart : R s.startDecode u.startDecode) :
    R s.start u.start := by
  rw [State.start, State.start, hphase]
  split
  · exact hstart
  · exact h

theorem hostMove_ctrl_agree (v : Nat) (h : R s u) (hstart : R s.start u.start) :
    OutcomeAgree R (hostMove (.writeReg .ctrl v) s) (hostMove (.writeReg .ctrl v) u) := by
  simp only [hostMove, hostWriteReg, hostWriteCtrl]
  exact .ite hstart h

/-- A relation that every state change of the host keeps is kept by every host move. -/
theorem hostMove_agree (hphase : s.phase = u.phase) (hmax : s.inLenMax = u.inLenMax) (h : R s u)
    (hstart : R s.startDecode u.startDecode) (hpower : R s.powerOn u.powerOn)
    (hin : ∀ a b, R (s.writeInput a b) (u.writeInput a b)) (hlen : ∀ n, R (s.setInLen n) (u.setInLen n))
    (m : HostMove) : OutcomeAgree R (hostMove m s) (hostMove m u) := by
  cases m with
  | writeIn a b => exact hostMove_writeIn_agree hphase hmax a b (hin a b)
  | powerOn => exact hpower
  | wait => exact h
  | writeReg r v =>
    by_cases hctrl : r = .ctrl
    · rw [hctrl]
      exact hostMove_ctrl_agree v h (State.start_agree hphase h hstart)
    · by_cases hreg : r = .inLen
      · rw [hreg]
        exact hostMove_writeInLen_agree hphase hmax v (hlen v)
      · rw [hostMove_readOnly s v hctrl hreg, hostMove_readOnly u v hctrl hreg]
        exact h

/-- States in one phase that fetch the same step alike when each meaning and each rejection keeps the relation. -/
theorem blockStep_agree (hphase : s.phase = u.phase) (hfetch : s.fetch = u.fetch)
    (hexec : ∀ i, OutcomeAgree R (exec i s) (exec i u)) (hraise : ∀ e, R (s.raise e 0) (u.raise e 0)) :
    OutcomeAgree R (blockStep s) (blockStep u) := by
  rw [blockStep, blockStep, hphase, hfetch]
  refine .ite rfl ?_
  cases u.fetch with
  | instr i => exact hexec i
  | reject r => exact hraise (rejectError r)

/-- A relation kept by dropping the host's consumed move, by the block's step and by every host move is kept by every
step. -/
theorem step_agree (hbox : ∀ s u, R s u → s.inbox = u.inbox) (hphase : ∀ s u, R s u → s.phase = u.phase)
    (hdrop : ∀ s u moves, R s u → R (s.setInbox moves) (u.setInbox moves))
    (hblock : ∀ s u, R s u → OutcomeAgree R (blockStep s) (blockStep u))
    (hhost : ∀ m s u, R s u → OutcomeAgree R (hostMove m s) (hostMove m u)) (h : R s u) :
    OutcomeAgree R (step s) (step u) := by
  cases hi : u.inbox with
  | nil =>
    rw [step_inbox_nil ((hbox s u h).trans hi), step_inbox_nil hi]
    exact hblock s u h
  | cons m moves =>
    have hrest := hdrop s u moves h
    by_cases hm : m = .wait
    · subst hm
      rw [step_wait ((hbox s u h).trans hi), step_wait hi, waitStep, waitStep, hphase _ _ hrest]
      exact .ite hrest (hblock _ _ hrest)
    · rw [step_move ((hbox s u h).trans hi) hm, step_move hi hm]
      exact hhost m _ _ hrest

end

/-! ## States alike but for `COLORSPACE` -/

namespace SameButColorspace

variable {s u : State}

/-- What does not read `COLORSPACE` is the same of both states. -/
theorem eq_of_unread {α : Type} (h : SameButColorspace s u) (f : State → α)
    (hf : ∀ col, f { u with colorspace := col } = f u) : f s = f u := by
  rw [h]
  exact hf _

/-- An update that neither reads `COLORSPACE` nor copies it elsewhere leaves the states alike. -/
theorem map (h : SameButColorspace s u) (f : State → State)
    (hf : ∀ col, SameButColorspace (f { u with colorspace := col }) (f u)) : SameButColorspace (f s) (f u) := by
  rw [h]
  exact hf _

theorem phase_eq (h : SameButColorspace s u) : s.phase = u.phase := h.eq_of_unread State.phase fun _ => rfl

theorem raise (h : SameButColorspace s u) (e : DecodeError) (info : Byte) :
    SameButColorspace (s.raise e info) (u.raise e info) := h.map (·.raise e info) fun _ => rfl

/-- Both states hold the new header's colorspace byte. -/
theorem publishHeader (h : SameButColorspace s u) (w ht : U32) (c col : Byte) :
    SameButColorspace (s.publishHeader w ht c col) (u.publishHeader w ht c col) :=
  h.map (·.publishHeader w ht c col) fun _ => rfl

theorem exec_hdr (h : SameButColorspace s u) (w ht : U32) (c col : Byte) :
    OutcomeAgree SameButColorspace (exec (.hdr w ht c col) s) (exec (.hdr w ht c col) u) := by
  have hmax : s.maxOutBytes = u.maxOutBytes := h.eq_of_unread State.maxOutBytes fun _ => rfl
  have hpublished := h.publishHeader w ht c col
  rw [Machine.exec_hdr, Machine.exec_hdr, hmax]
  exact .ite (h.raise _ _) (.ite (hpublished.raise _ _) (hpublished.map State.enterBody fun _ => rfl))

theorem exec_endMarker (h : SameButColorspace s u) :
    OutcomeAgree SameButColorspace (exec .endMarker s) (exec .endMarker u) := by
  have hout : s.outLen = u.outLen := h.eq_of_unread State.outLen fun _ => rfl
  have hexpected : s.expectedLen = u.expectedLen := h.eq_of_unread State.expectedLen fun _ => rfl
  rw [Machine.exec_endMarker, Machine.exec_endMarker, hout, hexpected]
  exact .ite (h.raise _ _) (h.map (State.setPhase .done) fun _ => rfl)

theorem exec (h : SameButColorspace s u) (i : Instr) : OutcomeAgree SameButColorspace (exec i s) (exec i u) := by
  by_cases hhdr : ∃ w ht c col, i = .hdr w ht c col
  · obtain ⟨w, ht, c, col, rfl⟩ := hhdr
    exact h.exec_hdr w ht c col
  · by_cases hend : i = .endMarker
    · rw [hend]
      exact h.exec_endMarker
    · have hi : ∀ w ht c col, i ≠ .hdr w ht c col := by simpa using hhdr
      have hpixel : newPixel i s = newPixel i u := h.eq_of_unread (newPixel i) fun _ => by cases i <;> rfl
      rw [exec_pixelOperator hi hend, exec_pixelOperator hi hend, hpixel]
      exact h.map (fun t => (t.setPx (newPixel i u)).commonTail (pixelCount i) (i.length - 1)) fun _ => rfl

theorem blockStep (h : SameButColorspace s u) : OutcomeAgree SameButColorspace (blockStep s) (blockStep u) :=
  blockStep_agree h.phase_eq (h.eq_of_unread State.fetch fun _ => rfl) h.exec fun e => h.raise e 0

theorem hostMove (h : SameButColorspace s u) (m : HostMove) :
    OutcomeAgree SameButColorspace (hostMove m s) (hostMove m u) :=
  hostMove_agree h.phase_eq (h.eq_of_unread State.inLenMax fun _ => rfl) h (h.map State.startDecode fun _ => rfl)
    (h.map State.powerOn fun _ => rfl) (fun a b => h.map (State.writeInput a b) fun _ => rfl)
    (fun n => h.map (State.setInLen n) fun _ => rfl) m

end SameButColorspace

/-- Settles O47: every update the block or the host makes leaves the two states alike. -/
theorem colorspaceAffectsNothing : Obligations.ColorspaceAffectsNothing := fun _ _ h =>
  step_agree (fun _ _ h => h.eq_of_unread State.inbox fun _ => rfl) (fun _ _ h => h.phase_eq)
    (fun _ _ moves h => h.map (State.setInbox moves) fun _ => rfl) (fun _ _ h => h.blockStep)
    (fun m _ _ h => h.hostMove m) h

end Sys2Proof.Machine
end

section
/-! The operator step (41_operator_step.md): the peek at the end marker (O19), missing operand bytes (O25), the bytes a
step reads (O46), and the hash (O16). -/

namespace Sys2Proof

/-! ## Missing operand bytes (R143) -/

theorem decodeLuma_short (op : Byte) {xs : List Byte} (h : xs.length < 1) : decodeLuma op xs = .reject .truncated := by
  match xs, h with
  | [], _ => rfl

theorem decodeRgb_short {xs : List Byte} (h : xs.length < 3) : decodeRgb xs = .reject .truncated := by
  match xs, h with
  | [], _ => rfl
  | [_], _ => rfl
  | [_, _], _ => rfl

theorem decodeRgba_short {xs : List Byte} (h : xs.length < 4) : decodeRgba xs = .reject .truncated := by
  match xs, h with
  | [], _ => rfl
  | [_], _ => rfl
  | [_, _], _ => rfl
  | [_, _, _], _ => rfl

/-- The converse of `decodeTag_reject`. -/
theorem decodeTag_truncated {op : Byte} {xs : List Byte}
    (h : (tagOf op = 2 ∧ xs.length < 1) ∨ (op = 0xFE ∧ xs.length < 3) ∨ (op = 0xFF ∧ xs.length < 4)) :
    decodeTag op xs = .reject .truncated := by
  rcases h with ⟨htag, hlen⟩ | ⟨rfl, hlen⟩ | ⟨rfl, hlen⟩
  · rw [decodeTag_luma htag, decodeLuma_short op hlen]
  · rw [decodeTag_rgb, decodeRgb_short hlen]
  · rw [decodeTag_rgba, decodeRgba_short hlen]

/-- A tag byte that wants operands is not `0x00`, so the marker test does not see it (R106). -/
theorem decodeOperator_truncated {op : Byte} {xs : List Byte}
    (h : (tagOf op = 2 ∧ xs.length < 1) ∨ (op = 0xFE ∧ xs.length < 3) ∨ (op = 0xFF ∧ xs.length < 4)) :
    decodeOperator (op :: xs) = .reject .truncated := by
  have hop : op ≠ 0 := by
    rintro rfl
    rcases h with ⟨htag, -⟩ | ⟨hop, -⟩ | ⟨hop, -⟩
    · exact absurd htag (by decide)
    · exact absurd hop (by decide)
    · exact absurd hop (by decide)
  rw [decodeOperator_cons (take_ne_endMarker xs hop), decodeTag_truncated h]

end Sys2Proof

namespace Sys2Proof.Machine

theorem step_body {s : State} (hp : s.phase = .body) (hbox : s.inbox = []) :
    step s = runDecoded (decodeOperator s.streamWindow) s := by
  rw [step_inbox_nil hbox, blockStep_body hp]

/-- Fewer operand bytes below `IN_LEN` than the tag byte at `POS` wants: the step takes the error from the state as it
is. -/
theorem step_truncated {s : State} (hp : s.phase = .body) (hbox : s.inbox = []) (hpos : s.pos < s.inLen)
    (h : (tagOf (s.inByte s.pos) = 2 ∧ s.inLen - s.pos - 1 < 1) ∨
      (s.inByte s.pos = 0xFE ∧ s.inLen - s.pos - 1 < 3) ∨ (s.inByte s.pos = 0xFF ∧ s.inLen - s.pos - 1 < 4)) :
    step s = .next (raised .truncatedOperatorStream 0 s) := by
  obtain ⟨operands, hwindow, hlen⟩ := State.streamWindow_cons hpos
  have hle : operands.length ≤ s.inLen - s.pos - 1 := by omega
  have hdecode : decodeOperator s.streamWindow = .reject .truncated := by
    rw [hwindow]
    exact decodeOperator_truncated (h.imp (.imp_right hle.trans_lt) (.imp (.imp_right hle.trans_lt)
      (.imp_right hle.trans_lt)))
  rw [step_body hp hbox, hdecode, runDecoded_reject, State.raise_eq_raised s (.inr rfl), rejectError]

/-- Settles O25: one case for each operator that has operand bytes. -/
theorem missingOperandIsTruncated : Obligations.MissingOperandIsTruncated := by
  intro s hp hbox hpos
  refine ⟨fun lo hi hlen => ?_, fun hop hlen => ?_, fun hop hlen => ?_⟩
  · exact step_truncated hp hbox hpos (.inl ⟨(tagOf_eq_two _).2 ⟨lo, hi⟩, hlen⟩)
  · exact step_truncated hp hbox hpos (.inr (.inl ⟨hop, hlen⟩))
  · exact step_truncated hp hbox hpos (.inr (.inr ⟨hop, hlen⟩))

/-! ## The peek at the end marker (R141) -/

/-- Only END checks the output length. -/
theorem operatorStep_sizeMismatch {s t : State} (hp : s.phase = .body) (h : blockStep s = .next t)
    (ht : t.phase = .error) (he : t.errCode = some .sizeMismatch) : s.markerAtPos := by
  rcases operatorStep_cases hp h with ⟨p, n, k, rfl, -⟩ | ⟨hwindow, -⟩ | ⟨-, rfl⟩ | ⟨-, rfl⟩
  · simp [hp] at ht
  · exact s.streamWindow_marker.1 hwindow
  · simp at he
  · simp at he

/-- Settles O19: both ends of END need the whole marker. -/
theorem peekMatchesWholeMarkerOnly : Obligations.PeekMatchesWholeMarkerOnly := by
  intro s t hp hbox hmarker hstep
  rw [step_inbox_nil hbox] at hstep
  exact ⟨fun hdone => hmarker (blockStep_done hstep hdone).1,
    fun herror he => hmarker (operatorStep_sizeMismatch hp hstep herror he)⟩

/-! ## The bytes a step reads (R152) -/

/-- No meaning reads or writes `IN`: with another input it leaves the same state, but for that input. -/
theorem exec_withInput (i : Instr) (s : State) (m : Memory) :
    ∃ t, exec i s = .next t ∧ exec i { s with inMem := m } = .next { t with inMem := m } := by
  cases i with
  | hdr w h c col =>
    simp only [exec_hdr]
    split_ifs
    · exact ⟨_, rfl, rfl⟩
    · exact ⟨_, rfl, rfl⟩
    · exact ⟨_, rfl, rfl⟩
  | endMarker =>
    simp only [exec_endMarker]
    split_ifs
    · exact ⟨_, rfl, rfl⟩
    · exact ⟨_, rfl, rfl⟩
  | _ => exact ⟨_, rfl, rfl⟩

/-- The registers that place the window and enable the step are the same in both states. -/
theorem SameButInput.fetch_registers {s u : State} (h : SameButInput s u) :
    s.phase = u.phase ∧ s.inbox = u.inbox ∧ s.pos = u.pos ∧ s.inLen = u.inLen := by
  rw [h]
  exact ⟨rfl, rfl, rfl, rfl⟩

theorem SameButInput.runDecoded {s u : State} (h : SameButInput s u) (d : Decoded) :
    OutcomeAgree SameButInput (Machine.runDecoded d s) (Machine.runDecoded d u) := by
  rw [h]
  cases d with
  | instr i =>
    obtain ⟨t, hu, hs⟩ := exec_withInput i u s.inMem
    rw [runDecoded_instr, runDecoded_instr, hu, hs]
    rfl
  | reject r => rfl

/-- The window holds nothing beyond the eight bytes at `POS` and nothing at or beyond `IN_LEN`. -/
theorem State.streamWindow_congr {s u : State} (hpos : s.pos = u.pos) (hlen : s.inLen = u.inLen)
    (hread : ∀ j, j < 8 → s.pos + j < s.inLen → s.inByte (s.pos + j) = u.inByte (s.pos + j)) :
    s.streamWindow = u.streamWindow := by
  rw [State.streamWindow, State.streamWindow, ← hpos, ← hlen]
  exact State.inBytes_congr fun j hj => hread j (by omega) (by omega)

/-- Settles O46: both states decode the same window, and what they run of it keeps them alike. -/
theorem stepReadsEightBytesAtMost : Obligations.StepReadsEightBytesAtMost := by
  intro s u hp hbox h hread
  obtain ⟨hphase, hinbox, hpos, hlen⟩ := h.fetch_registers
  rw [step_body hp hbox, step_body (hphase ▸ hp) (hinbox ▸ hbox), State.streamWindow_congr hpos hlen hread]
  exact h.runDecoded _

/-! ## The hash (R148) -/

theorem pixelHash_rgba (p : Pixel) : (pixelHash .rgba p).val =
    (p.r.toNat * 3 + p.g.toNat * 5 + p.b.toNat * 7 + p.a.toNat * 11) % 64 := pixelHash_val .rgba p

/-- The constant alpha 255 counts as 2805. -/
theorem pixelHash_rgb (p : Pixel) : (pixelHash .rgb p).val =
    (p.r.toNat * 3 + p.g.toNat * 5 + p.b.toNat * 7 + 2805) % 64 := pixelHash_val .rgb p

theorem hashSum_le (p : Pixel) :
    p.r.toNat * 3 + p.g.toNat * 5 + p.b.toNat * 7 + p.a.toNat * 11 ≤ 6630 := by
  have := p.r.isLt
  have := p.g.isLt
  have := p.b.isLt
  have := p.a.isLt
  omega

/-- Settles O16: the two reductions are by 256 and by 2805 - 53, both multiples of 64. -/
theorem hashIsFormulaModSixtyFour : Obligations.HashIsFormulaModSixtyFour := by
  refine ⟨fun p => ⟨hashSum_le p, pixelHash_rgba p, ?_, pixelHash_rgb p, ?_, ?_⟩, pixelHash_rgba _, pixelHash_rgb _⟩
  · rw [Nat.mod_mod_of_dvd _ (by decide), pixelHash_rgba]
  · rw [Nat.mod_mod_of_dvd _ (by decide), pixelHash_rgb]
  · rw [pixelHash_rgb]
    omega

end Sys2Proof.Machine
end

section
/-! The six pixel operators, in the terms of the statements (41_operator_step.md R146 to R151), and INDEX (42_index.md):
its result (O8) and an index that stays the same (O15). -/

namespace Sys2Proof.Machine

/-! ## The mode of a legal channel byte (10_state.md R31) -/

namespace State.inMode

variable {rgba : Bool} {s : State}

theorem decide_channels (h : s.inMode rgba) : decide (s.channels = 4) = rgba := by
  rw [show s.channels = BitVec.ofNat 8 (channelCount rgba) from h]
  cases rgba <;> decide

theorem mode_eq (h : s.inMode rgba) : s.mode = if rgba then .rgba else .rgb := by
  have hc := h.decide_channels
  cases rgba with
  | false => exact State.mode_rgb (of_decide_eq_false hc)
  | true => exact State.mode_rgba (of_decide_eq_true hc)

theorem cs_eq (h : s.inMode rgba) : s.cs = channelCount rgba := by
  rw [State.cs, h.mode_eq]
  cases rgba <;> rfl

theorem merge_eq (h : s.inMode rgba) (p q : Pixel) : s.mode.merge p q = laneWrite rgba p q := by
  rw [h.mode_eq]
  cases rgba <;> rfl

/-- The machine's hash is the formula of the mode (R148). -/
theorem pixelHash_eq (h : s.inMode rgba) (p : Pixel) : (pixelHash s.mode p).val = hashFormula rgba p := by
  rw [State.pixelHash_eq_hashFormula, h.decide_channels]

end State.inMode

/-! ## Lane writes (10_state.md R22, R26) -/

/-- A pixel loaded into a register and written back where it came from leaves that place as it was. -/
theorem laneWrite_laneWrite_self (rgba : Bool) (p q : Pixel) : laneWrite rgba (laneWrite rgba p q) p = p := by
  cases rgba <;> rfl

/-- The hash reads no lane that a write leaves out. -/
theorem hashFormula_laneWrite (rgba : Bool) (p q : Pixel) :
    hashFormula rgba (laneWrite rgba p q) = hashFormula rgba p := by
  cases rgba <;> rfl

/-! ## The effect of a pixel operator -/

/-- Byte `j` of a pixel is its lane `j` (20_memory.md R62). -/
theorem pixelBytes_getElem? {m : Mode} (p : Pixel) {j : Nat} (h : j < m.size) :
    (pixelBytes m p)[j]? = some (p.lane j) := by
  cases m with
  | rgb =>
    have hj : j < 3 := h
    interval_cases j <;> rfl
  | rgba =>
    have hj : j < 4 := h
    interval_cases j <;> rfl

/-- Past `OUT_LEN` a pixel operator lists the lanes of the new pixel, over and over (R150). -/
theorem State.pixelOperator_appended (s : State) (p : Pixel) (n k : Nat) {a : Nat} (hlo : s.outLen ≤ a)
    (hhi : a < s.outLen + n * s.cs) :
    ((s.setPx p).commonTail n k).outMem.read a = some ((s.mode.merge p s.px).lane ((a - s.outLen) % s.cs)) := by
  have hoffset : a - s.outLen < n * s.mode.size := Nat.sub_lt_left_of_lt_add hlo hhi
  rw [State.commonTail_outMem, Memory.read_writeBytes, repeatedPixel_length]
  calc
    _ = (repeatedPixel n s.mode (s.mode.merge p s.px))[a - s.outLen]? := if_pos ⟨hlo, hhi⟩
    _ = (pixelBytes s.mode (s.mode.merge p s.px))[(a - s.outLen) % s.cs]? := repeatedPixel_getElem? n s.mode _ hoffset
    _ = _ := pixelBytes_getElem? _ (Nat.mod_lt _ s.mode.size_pos)

/-- Every pixel operator has the effect of R146 to R151, for the pixel that its lane write to `PX` leaves. -/
theorem State.pixelOperator_effect {rgba : Bool} {s : State} (h : s.inMode rgba) (p : Pixel) (n k : Nat) :
    OperatorEffect rgba s ((s.setPx p).commonTail n k) (laneWrite rgba p s.px) n k where
  px := h.merge_eq p s.px
  hist i := by
    have hi : i = (s.setPx p).hashIndex ↔ i.val = hashFormula rgba (laneWrite rgba p s.px) := by
      rw [State.setPx_hashIndex, Fin.ext_iff, h.pixelHash_eq, hashFormula_laneWrite]
    simp only [State.commonTail_entry, hi, State.setPx_px, State.setPx_hist, State.setPx_mode, h.merge_eq]
  out a := by
    rw [← h.cs_eq, ← h.merge_eq]
    split
    · next ha => exact s.pixelOperator_appended p n k ha.1 ha.2
    · next ha => exact s.pixelOperator_read p n k ha
  outLen := by rw [State.commonTail_outLen, State.setPx_cs, h.cs_eq, State.setPx_outLen]
  pos := rfl
  rest := s.pixelOperator_rest p n k

/-! ## INDEX (R160, R162) -/

/-- A tag byte as a number: the tag above six bits of payload (30_encoding.md R92). -/
theorem tagByte_eq_ofNat (t : BitVec 2) (p : BitVec 6) : tagByte t p = BitVec.ofNat 8 (t.toNat * 64 + p.toNat) := by
  revert t p; decide

theorem encode_index (i : BitVec 6) : encode (.index i) = [BitVec.ofNat 8 i.toNat] := by
  rw [encode, tagByte_eq_ofNat]
  simp

theorem index_effect {rgba : Bool} {s : State} (h : s.inMode rgba) (i : BitVec 6) :
    ∃ t, exec (.index i) s = .next t ∧ OperatorEffect rgba s t (laneWrite rgba s.hist[entryNumber i] s.px) 1 0 :=
  ⟨_, exec_index i s, State.pixelOperator_effect h _ 1 0⟩

/-- Settles O8: the byte is INDEX's encoding, and its meaning is the pixel operator that writes entry i to `PX`. -/
theorem indexLoadsEntry : Obligations.IndexLoadsEntry := by
  refine fun i => ⟨fun rest hmarker => ?_, fun rgba s h => index_effect h i⟩
  have hbytes : encode (.index i) ++ rest = BitVec.ofNat 8 i.toNat :: rest := by
    rw [encode_index, List.singleton_append]
  rw [← hbytes] at hmarker ⊢
  exact operatorDecodeEncodeAgree (.index i) rest rfl (by simp) fun _ => hmarker

/-- Settles O15: the one entry the tail stores is entry i, and it gets back the lanes that INDEX read from it. -/
theorem indexOfStoredEntryKeepsIndex : Obligations.IndexOfStoredEntryKeepsIndex := by
  intro rgba s i h hhash
  obtain ⟨t, hexec, heffect⟩ := index_effect h i
  refine ⟨t, hexec, hist_ext fun j => ?_⟩
  rw [heffect.hist j, hashFormula_laneWrite, hhash]
  split
  · next hj =>
    have hentry : j = entryNumber i := Fin.ext hj
    rw [hentry, laneWrite_laneWrite_self]
  · rfl

end Sys2Proof.Machine
end

section
/-! DIFF and LUMA (43_diff_luma.md): their bytes as numbers, their deltas as signed numbers, their results (O9, O10). -/

namespace Sys2Proof.Machine

/-! ## The bytes (30_encoding.md R94, R95) -/

theorem diffPayload_toNat (rf gf bf : BitVec 2) :
    (diffPayload rf gf bf).toNat = rf.toNat * 16 + gf.toNat * 4 + bf.toNat := by
  revert rf gf bf; decide

theorem encode_diff (rf gf bf : BitVec 2) :
    encode (.diff rf gf bf) = [BitVec.ofNat 8 (0x40 + rf.toNat * 16 + gf.toNat * 4 + bf.toNat)] := by
  rw [encode, tagByte_eq_ofNat, diffPayload_toNat]
  simp [Nat.add_assoc]

theorem lumaTag_eq_ofNat (gf : BitVec 6) : tagByte 2 gf = BitVec.ofNat 8 (0x80 + gf.toNat) :=
  tagByte_eq_ofNat 2 gf

theorem lumaByte_eq_ofNat (rf bf : BitVec 4) : lumaByte rf bf = BitVec.ofNat 8 (rf.toNat * 16 + bf.toNat) := by
  revert rf bf; decide

theorem encode_luma (gf : BitVec 6) (rf bf : BitVec 4) : encode (.luma gf rf bf) =
    [BitVec.ofNat 8 (0x80 + gf.toNat), BitVec.ofNat 8 (rf.toNat * 16 + bf.toNat)] := by
  rw [encode, lumaTag_eq_ofNat, lumaByte_eq_ofNat]

/-- Only an INDEX byte can be `0x00`, the first byte of the end marker (R106). -/
theorem tagByte_ne_zero {t : BitVec 2} (ht : t ≠ 0) (p : BitVec 6) : tagByte t p ≠ 0 := fun hzero =>
  ht (calc
    t = tagOf (tagByte t p) := (tagOf_tagByte t p).symm
    _ = tagOf 0 := by rw [hzero]
    _ = 0 := by decide)

/-- An operator under any tag but INDEX's decodes whatever follows it: no byte after it can make the end marker. -/
theorem decodeOperator_encode_tagged {i : Instr} {t : BitVec 2} {p : BitVec 6} {operands : List Byte}
    (hbytes : encode i = tagByte t p :: operands) (ht : t ≠ 0) (hwf : i.wf = true)
    (hh : ∀ w h c col, i ≠ .hdr w h c col) (rest : List Byte) : decodeOperator (encode i ++ rest) = .instr i :=
  operatorDecodeEncodeAgree i rest hwf hh fun _ => by
    rw [hbytes]
    exact take_ne_endMarker _ (tagByte_ne_zero ht p)

theorem decodeOperator_luma_truncated (gf : BitVec 6) : decodeOperator [tagByte 2 gf] = .reject .truncated :=
  decodeOperator_truncated (.inl ⟨tagOf_tagByte 2 gf, by simp⟩)

/-! ## The deltas (R96 to R98, 43_diff_luma.md R170) -/

/-- Deltas kept as bytes shift a pixel as the signed numbers they stand for. -/
theorem addDeltas_ofInt (dr dg db : Int) (p : Pixel) :
    addDeltas (BitVec.ofInt 8 dr) (BitVec.ofInt 8 dg) (BitVec.ofInt 8 db) p = shiftedPixel p dr dg db := by
  simp only [addDeltas, shiftedPixel, wrapByte, add_ofInt]

/-- A shifted pixel has the alpha of the pixel it is written over, so the mode of the write makes no difference. -/
theorem laneWrite_shiftedPixel (rgba : Bool) (p : Pixel) (dr dg db : Int) :
    laneWrite rgba (shiftedPixel p dr dg db) p = shiftedPixel p dr dg db := by
  cases rgba <;> rfl

/-- `apply Diff` with signed deltas, then the common tail (R170). -/
theorem State.deltaOperator_effect {rgba : Bool} {s : State} (h : s.inMode rgba) (dr dg db : Int) (k : Nat) :
    OperatorEffect rgba s ((s.setPx (shiftedPixel s.px dr dg db)).commonTail 1 k) (shiftedPixel s.px dr dg db) 1 k := by
  have heffect := State.pixelOperator_effect h (shiftedPixel s.px dr dg db) 1 k
  rwa [laneWrite_shiftedPixel] at heffect

/-- DIFF with its deltas as signed numbers (R172). -/
theorem exec_diff_signed (rf gf bf : BitVec 2) (s : State) : exec (.diff rf gf bf) s =
    .next ((s.setPx (shiftedPixel s.px (rf.toNat - 2) (gf.toNat - 2) (bf.toNat - 2))).commonTail 1 0) := by
  rw [exec_diff, diffDelta_eq_ofInt, diffDelta_eq_ofInt, diffDelta_eq_ofInt, addDeltas_ofInt]

/-- LUMA with its deltas as signed numbers (R174). -/
theorem exec_luma_signed (gf : BitVec 6) (rf bf : BitVec 4) (s : State) : exec (.luma gf rf bf) s =
    .next ((s.setPx (shiftedPixel s.px (rf.toNat - 8 + (gf.toNat - 32)) (gf.toNat - 32)
      (bf.toNat - 8 + (gf.toNat - 32)))).commonTail 1 1) := by
  rw [exec_luma, lumaChroma_eq_ofInt, lumaChroma_eq_ofInt, lumaGreen_eq_ofInt, addDeltas_ofInt]

/-! ## The results -/

/-- Settles O9: the byte is DIFF's encoding, and its meaning is the delta operator of its biased fields. -/
theorem diffAddsBiasedFields : Obligations.DiffAddsBiasedFields := by
  refine fun rf gf bf => ⟨fun rest => ?_, fun rgba s h => ?_⟩
  · rw [← List.singleton_append, ← encode_diff]
    exact decodeOperator_encode_tagged rfl (by decide) rfl (by simp) rest
  · exact ⟨_, exec_diff_signed rf gf bf s, State.deltaOperator_effect h _ _ _ 0⟩

/-- Settles O10: the two bytes are LUMA's encoding, the first alone wants its operand, and the meaning is the delta
operator of the green delta and of the other two relative to it. -/
theorem lumaAddsRelativeDeltas : Obligations.LumaAddsRelativeDeltas := by
  refine fun gf rf bf => ⟨fun rest => ?_, ?_, fun rgba s h => ?_⟩
  · have hdecode : decodeOperator (encode (.luma gf rf bf) ++ rest) = .instr (.luma gf rf bf) :=
      decodeOperator_encode_tagged rfl (by decide) rfl (by simp) rest
    rwa [encode_luma] at hdecode
  · rw [← lumaTag_eq_ofNat]
    exact decodeOperator_luma_truncated gf
  · exact ⟨_, exec_luma_signed gf rf bf s, State.deltaOperator_effect h _ _ _ 1⟩

end Sys2Proof.Machine
end

section
/-! RGB and RGBA (44_rgb_rgba.md): their bytes, the lanes each one writes, their results (O11, O12). -/

namespace Sys2Proof.Machine

/-! ## The bytes (30_encoding.md R100, R101) -/

theorem decodeOperator_rgb (r g b : Byte) (rest : List Byte) :
    decodeOperator (0xFE :: r :: g :: b :: rest) = .instr (.rgb r g b) := by
  rw [decodeOperator_cons (take_ne_endMarker _ (by decide)), decodeTag_rgb, decodeRgb]

theorem decodeOperator_rgba (r g b a : Byte) (rest : List Byte) :
    decodeOperator (0xFF :: r :: g :: b :: a :: rest) = .instr (.rgba r g b a) := by
  rw [decodeOperator_cons (take_ne_endMarker _ (by decide)), decodeTag_rgba, decodeRgba]

/-! ## The meanings -/

/-- New colours with the alpha of the pixel they are written over are written whole, in either mode. -/
theorem laneWrite_keepsAlpha (rgba : Bool) (r g b : Byte) (p : Pixel) :
    laneWrite rgba ⟨r, g, b, p.a⟩ p = ⟨r, g, b, p.a⟩ := by
  cases rgba <;> rfl

/-- RGB in either mode (R181). -/
theorem rgb_effect {rgba : Bool} {s : State} (h : s.inMode rgba) (r g b : Byte) :
    ∃ t, exec (.rgb r g b) s = .next t ∧ OperatorEffect rgba s t ⟨r, g, b, s.px.a⟩ 1 3 := by
  have heffect := State.pixelOperator_effect h ⟨r, g, b, s.px.a⟩ 1 3
  rw [laneWrite_keepsAlpha] at heffect
  exact ⟨_, exec_rgb r g b s, heffect⟩

/-- RGBA in either mode: the a operand is written or dropped as any lane write has it (R183, R184). -/
theorem rgba_effect {rgba : Bool} {s : State} (h : s.inMode rgba) (r g b a : Byte) :
    ∃ t, exec (.rgba r g b a) s = .next t ∧ OperatorEffect rgba s t (laneWrite rgba ⟨r, g, b, a⟩ s.px) 1 4 :=
  ⟨_, exec_rgba r g b a s, State.pixelOperator_effect h ⟨r, g, b, a⟩ 1 4⟩

/-! ## The results -/

/-- Settles O11: the decoder wants three operand bytes, and the pixel RGB writes already has the alpha of `PX`. -/
theorem rgbSetsColourLanes : Obligations.RgbSetsColourLanes :=
  ⟨fun _ hlen => decodeOperator_truncated (.inr (.inl ⟨rfl, hlen⟩)),
    fun r g b => ⟨decodeOperator_rgb r g b, fun _ _ h => rgb_effect h r g b⟩⟩

/-- Settles O12: the decoder wants four operand bytes, and the mode's lane write is the whole pixel in RGBA mode and
all but alpha in RGB mode. -/
theorem rgbaSetsAllLanes : Obligations.RgbaSetsAllLanes :=
  ⟨fun _ hlen => decodeOperator_truncated (.inr (.inr ⟨rfl, hlen⟩)),
    fun r g b a => ⟨decodeOperator_rgba r g b a, fun _ =>
      ⟨fun h => rgba_effect h r g b a, fun h => rgba_effect h r g b a⟩⟩⟩

end Sys2Proof.Machine
end

section
/-! RUN (45_run.md): its byte as a number, its result (O13). -/

namespace Sys2Proof.Machine

theorem encode_run (l : BitVec 6) : encode (.run l) = [BitVec.ofNat 8 (0xC0 + l.toNat)] := by
  rw [encode, tagByte_eq_ofNat]
  rfl

/-- A pixel written over itself is left as it was, in either mode. -/
theorem laneWrite_self (rgba : Bool) (p : Pixel) : laneWrite rgba p p = p := by
  cases rgba <;> rfl

/-- RUN is the pixel operator that writes `PX` to itself and repeats it `l + 1` times (R191). -/
theorem run_effect {rgba : Bool} {s : State} (h : s.inMode rgba) (l : BitVec 6) :
    ∃ t, exec (.run l) s = .next t ∧ OperatorEffect rgba s t s.px (l.toNat + 1) 0 := by
  have heffect := State.pixelOperator_effect h s.px (l.toNat + 1) 0
  rw [laneWrite_self] at heffect
  exact ⟨_, exec_run l s, heffect⟩

/-- Settles O13: the byte is RUN's encoding, well formed for a legal payload, and its meaning is the pixel operator that
leaves `PX` as it is. -/
theorem runRepeatsPixel : Obligations.RunRepeatsPixel := by
  refine fun l hl => ⟨fun rest => ?_, fun rgba s h => run_effect h l⟩
  have hwf : (Instr.run l).wf = true := decide_eq_true hl
  rw [← List.singleton_append, ← encode_run]
  exact decodeOperator_encode_tagged rfl (by decide) hwf (by simp) rest

end Sys2Proof.Machine
end

section
/-! END (46_end_marker.md): the output-length check (O17), the step that finds the marker at `POS` (O18). -/

namespace Sys2Proof.Machine

/-- Settles O17: the two branches of END's one test (R201). -/
theorem endChecksOutputLength : Obligations.EndChecksOutputLength := by
  refine fun s => ⟨fun hlen => ?_, fun hlen => ?_⟩
  · rw [exec_endMarker, if_neg (not_not.2 hlen), State.setPhase]
  · rw [exec_endMarker, if_pos hlen, State.raise_eq_raised s (.inr rfl)]

/-- The peek of R141: with the marker at `POS` the step is END's meaning, before any tag byte is looked at. -/
theorem step_marker {s : State} (hp : s.phase = .body) (hbox : s.inbox = []) (hmarker : s.markerAtPos) :
    step s = exec .endMarker s := by
  rw [step_body hp hbox, s.streamWindow_marker.2 hmarker, decodeOperator_endMarker rfl, runDecoded_instr]

/-- Settles O18: the step is END's meaning, whose two outcomes are O17's. -/
theorem markerAtBoundaryEndsDecode : Obligations.MarkerAtBoundaryEndsDecode := by
  intro s hp hbox hmarker
  rw [step_marker hp hbox hmarker]
  exact endChecksOutputLength s

end Sys2Proof.Machine
end

section
/-! O45: a decode is a function of `IN`, `IN_LEN` and `MAX_OUT_BYTES` alone (60_exceptions.md R233, 10_state.md R43). Two
states that differ in the numbering of free values and the input-length parameter alone step alike as long as every input
byte was written. -/

namespace Sys2Proof.Machine

/-! ## States alike but for the free values and the input-length parameter -/

/-- No meaning and no rejection reads or writes the numbering of free values or the input-length parameter. -/
theorem runDecoded_withFreeValues (d : Decoded) (s : State) (e : Nat) (m : Option Nat) :
    OutcomeAgree SameDecode (runDecoded d { s with epoch := e, inLenMax := m }) (runDecoded d s) := by
  cases d with
  | reject r => rfl
  | instr i =>
    rw [runDecoded_instr, runDecoded_instr]
    cases i with
    | hdr w h c col =>
      rw [exec_hdr, exec_hdr]
      exact .ite rfl (.ite rfl rfl)
    | endMarker =>
      rw [exec_endMarker, exec_endMarker]
      exact .ite rfl rfl
    | _ => rfl

namespace SameDecode

variable {s u : State}

/-- What reads neither the numbering of free values nor the input-length parameter is the same of both states. -/
theorem eq_of_unread {α : Type} (h : SameDecode s u) (f : State → α)
    (hf : ∀ e m, f { u with epoch := e, inLenMax := m } = f u) : f s = f u := by
  rw [h]
  exact hf _ _

theorem phase_eq (h : SameDecode s u) : s.phase = u.phase := h.eq_of_unread State.phase fun _ _ => rfl

/-- A byte the host wrote is no free value (R258). -/
theorem inByte_eq (h : SameDecode s u) {a : Nat} (ha : s.inMem.read a ≠ none) : s.inByte a = u.inByte a := by
  obtain ⟨b, hb⟩ := Option.ne_none_iff_exists'.1 ha
  have hin : s.inMem = u.inMem := h.eq_of_unread State.inMem fun _ _ => rfl
  rw [State.inByte_listed hb, State.inByte_listed (hin ▸ hb)]

/-- Both windows end at `IN_LEN`, so they hold bytes of the written input only. -/
theorem fetch_eq (h : SameDecode s u) (hin : s.inputWritten) : s.fetch = u.fetch := by
  have hpos : s.pos = u.pos := h.eq_of_unread State.pos fun _ _ => rfl
  have hlen : s.inLen = u.inLen := h.eq_of_unread State.inLen fun _ _ => rfl
  have hheader : s.headerWindow = u.headerWindow := by
    rw [State.headerWindow, State.headerWindow, ← hlen]
    exact State.inBytes_congr fun j hj => h.inByte_eq (hin _ (by omega))
  have hstream : s.streamWindow = u.streamWindow :=
    State.streamWindow_congr hpos hlen fun j _ hj => h.inByte_eq (hin _ hj)
  rw [State.fetch, State.fetch, h.phase_eq, hheader, hstream]

theorem runDecoded (h : SameDecode s u) (d : Decoded) :
    OutcomeAgree SameDecode (Machine.runDecoded d s) (Machine.runDecoded d u) := by
  rw [h]
  exact runDecoded_withFreeValues d u _ _

theorem blockStep (h : SameDecode s u) (hin : s.inputWritten) :
    OutcomeAgree SameDecode (blockStep s) (blockStep u) := by
  rw [Machine.blockStep, Machine.blockStep, h.phase_eq, h.fetch_eq hin]
  exact .ite rfl (h.runDecoded _)

end SameDecode

/-! ## Steps and runs -/

/-- The block takes no move of the host. -/
theorem blockStep_inbox {s t : State} (h : blockStep s = .next t) : t.inbox = s.inbox := by
  rcases blockStep_phase h with hp | hp
  · rcases headerStep_cases hp h with
      rfl | rfl | ⟨w, ht, c, col, -, ⟨-, -, rfl⟩ | ⟨-, -, rfl⟩ | ⟨-, -, -, rfl⟩⟩ <;> rfl
  · rcases operatorStep_cases hp h with
      ⟨p, n, k, rfl, -⟩ | ⟨-, ⟨-, rfl⟩ | ⟨-, rfl⟩⟩ | ⟨-, rfl⟩ | ⟨-, rfl⟩ <;> rfl

/-- No host move is pending and every input byte was written: the block decodes on its own, without free values. -/
def State.decodesWritten (s : State) : Prop := s.inbox = [] ∧ s.inputWritten

theorem State.decodesWritten.step {s t : State} (h : s.decodesWritten) (hstep : step s = .next t) :
    t.decodesWritten := by
  obtain ⟨hbox, hin⟩ := h
  rw [step_inbox_nil hbox] at hstep
  have hkeep := AppendsOnly.blockStep hstep
  refine ⟨(blockStep_inbox hstep).trans hbox, ?_⟩
  rw [State.inputWritten, hkeep.inMem, hkeep.inLen]
  exact hin

theorem SameDecode.step {s u : State} (h : SameDecode s u) (hs : s.decodesWritten) :
    OutcomeAgree SameDecode (step s) (step u) := by
  obtain ⟨hbox, hin⟩ := hs
  have hbox' : s.inbox = u.inbox := h.eq_of_unread State.inbox fun _ _ => rfl
  rw [step_inbox_nil hbox, step_inbox_nil (hbox' ▸ hbox)]
  exact h.blockStep hin

/-- START writes every field a decode writes (R41). -/
theorem State.startDecode_sameDecode {s u : State} (hmem : s.inMem = u.inMem) (hlen : s.inLen = u.inLen)
    (hmax : s.maxOutBytes = u.maxOutBytes) (hbox : s.inbox = u.inbox) :
    SameDecode s.startDecode u.startDecode := by
  rw [SameDecode, State.startDecode, State.startDecode, hmem, hlen, hmax, hbox]

/-- Settles O45: after START the states are alike, single steps keep them so, and runs are steps. -/
theorem decodeIsFunctionOfInput : Obligations.DecodeIsFunctionOfInput := by
  intro s u k hs hu hbox hbox' hmem hlen hmax hin
  rw [State.start_quiescent hs, State.start_quiescent hu]
  exact run_agree SameDecode State.decodesWritten (fun _ _ h hw => h.step hw) (fun _ _ hw => hw.step) k _ _
    (State.startDecode_sameDecode hmem hlen hmax (hbox.trans hbox'.symm)) ⟨hbox, hin⟩

end Sys2Proof.Machine
end

section
/-! Errors (60_exceptions.md): `raise` (O23), what raises the two stream errors (O24, O26), precision (O27). -/

namespace Sys2Proof.Machine

/-- Settles O23: `ERROR` is a quiescent phase. -/
theorem raiseWritesErrorRegisters : Obligations.RaiseWritesErrorRegisters := by
  refine ⟨fun e info s => rfl, fun e info s => ⟨rfl, ?_⟩, fun e info s t hbox hstep => ?_⟩
  · cases e <;> rfl
  · rw [quiescentBlockHasNoStep (s.raise e info) (.inr (.inr rfl)) hbox] at hstep
    cases hstep

/-! ## The stream errors (R215, R216) -/

/-- Settles O24: with no byte left nothing is decoded, and no other of the operator step's five ends has this code. -/
theorem exhaustedStreamIsUnterminated : Obligations.ExhaustedStreamIsUnterminated := by
  refine fun s hp hbox hpos => ⟨fun heq => ?_, fun t hstep ht he => ?_⟩
  · rw [step_body hp hbox, State.streamWindow_empty heq.ge, decodeOperator_nil, runDecoded_reject,
      State.raise_eq_raised s (.inr rfl), rejectError]
  · rw [step_inbox_nil hbox] at hstep
    rcases operatorStep_cases hp hstep with ⟨p, n, k, rfl, -⟩ | ⟨-, ⟨-, rfl⟩ | ⟨-, rfl⟩⟩ | ⟨hle, -⟩ | ⟨-, rfl⟩
    · simp [hp] at ht
    · simp at ht
    · simp at he
    · exact le_antisymm hpos hle
    · simp at he

theorem rejectError_eq_truncated {r : DecodeReject} :
    rejectError r = .truncatedOperatorStream ↔ r = .truncated := by
  cases r <;> simp [rejectError]

/-- The operator step takes `TruncatedOperatorStream` from the decoder's rejection alone. -/
theorem operatorStep_truncated {s t : State} (hp : s.phase = .body) (h : blockStep s = .next t)
    (ht : t.phase = .error) (he : t.errCode = some .truncatedOperatorStream) :
    decodeOperator s.streamWindow = .reject .truncated := by
  rw [blockStep_body hp] at h
  cases hd : decodeOperator s.streamWindow with
  | reject r =>
    rw [hd, runDecoded_reject, Host.Outcome.next.injEq] at h
    rw [← h, State.raise_errCode, Option.some.injEq, rejectError_eq_truncated] at he
    rw [he]
  | instr i =>
    rw [hd, runDecoded_instr] at h
    rcases exec_operator hd s with ⟨-, rfl⟩ | ⟨-, p, n, k, hpixel, -⟩
    · rw [exec_endMarker] at h
      split at h
      · cases h
        simp at he
      · cases h
        simp at ht
    · rw [hpixel, Host.Outcome.next.injEq] at h
      simp [← h, hp] at ht

/-- A window that is not empty begins with `IN[POS]`, below `IN_LEN`. -/
theorem State.streamWindow_eq_cons {s : State} {op : Byte} {xs : List Byte} (h : s.streamWindow = op :: xs) :
    s.pos < s.inLen ∧ s.inByte s.pos = op := by
  have hpos : s.pos < s.inLen := by
    by_contra hle
    simp [State.streamWindow_empty (not_lt.1 hle)] at h
  obtain ⟨rest, hwindow, -⟩ := State.streamWindow_cons hpos
  rw [hwindow] at h
  exact ⟨hpos, (List.cons.inj h).1⟩

/-- Settles O26: the decoder rejects the operand bytes of these three tags alone. -/
theorem onlyMultiByteOperatorsTruncate : Obligations.OnlyMultiByteOperatorsTruncate := by
  intro s t hp hbox hstep ht he
  rw [step_inbox_nil hbox] at hstep
  rcases decodeOperator_reject (operatorStep_truncated hp hstep ht he) with ⟨-, hr⟩ | ⟨op, xs, hwindow, htag, -⟩
  · cases hr
  · obtain ⟨hpos, rfl⟩ := State.streamWindow_eq_cons hwindow
    refine ⟨hpos, ?_⟩
    obtain ⟨-, ⟨hluma, -⟩ | ⟨hrgb, -⟩ | ⟨hrgba, -⟩⟩ := decodeTag_reject htag
    · exact .inl ((tagOf_eq_two _).1 hluma)
    · exact .inr (by rw [hrgb]; decide)
    · exact .inr (by rw [hrgba]; decide)

/-! ## Precision (R219) -/

/-- A block step that ends in `ERROR` is one `raise`: from the state as it was, or, for `DimensionsTooLarge`, from the
published header. -/
theorem blockStep_error {s t : State} (h : blockStep s = .next t) (ht : t.phase = .error) :
    (∃ e info, e ≠ .dimensionsTooLarge ∧ t = s.raise e info) ∨
      ∃ w h c col, s.maxOutBytes < headerProduct w h c ∧
        t = (s.publishHeader w h c col).raise .dimensionsTooLarge 0 := by
  rcases blockStep_phase h with hp | hp
  · rcases headerStep_cases hp h with
      rfl | rfl | ⟨w, y, c, col, -, ⟨-, -, rfl⟩ | ⟨-, hbig, rfl⟩ | ⟨-, -, -, rfl⟩⟩
    · exact .inl ⟨_, _, by decide, rfl⟩
    · exact .inl ⟨_, _, by decide, rfl⟩
    · exact .inl ⟨_, _, by decide, rfl⟩
    · exact .inr ⟨w, y, c, col, hbig, rfl⟩
    · simp at ht
  · rcases operatorStep_cases hp h with ⟨p, n, k, rfl, -⟩ | ⟨-, ⟨-, rfl⟩ | ⟨-, rfl⟩⟩ | ⟨-, rfl⟩ | ⟨-, rfl⟩
    · simp [hp] at ht
    · simp at ht
    · exact .inl ⟨_, _, by decide, rfl⟩
    · exact .inl ⟨_, _, by decide, rfl⟩
    · exact .inl ⟨_, _, by decide, rfl⟩

/-- Settles O27: `raise` writes three registers, and publishing a header writes the header registers. -/
theorem errorsArePrecise : Obligations.ErrorsArePrecise := by
  intro s t hbox hstep ht
  rw [step_inbox_nil hbox] at hstep
  rcases blockStep_error hstep ht with ⟨e, info, he, rfl⟩ | ⟨w, h, c, col, hbig, rfl⟩
  · exact ⟨rfl, rfl, rfl, rfl, rfl, rfl, rfl, fun _ => ⟨rfl, rfl, rfl, rfl, rfl, rfl⟩,
      fun hdim => absurd (Option.some.inj hdim) he⟩
  · exact ⟨rfl, rfl, rfl, rfl, rfl, rfl, rfl, fun hdim => absurd rfl hdim, fun _ => ⟨rfl, rfl, hbig⟩⟩

end Sys2Proof.Machine
end

section
/-! A decode always comes to an end (70_reset_and_hazards.md R263): the block's step in a busy phase is total (O43), and
every operator that is not the last consumes a byte (O44). O50 is the result the host then takes (R259, R262). -/

namespace Sys2Proof.Machine

/-! ## The step is total -/

/-- Neither an instruction's meaning nor a rejection stops. -/
theorem runDecoded_next (d : Decoded) (s : State) : ∃ t, runDecoded d s = .next t := by
  cases d with
  | instr i => exact exec_next i s
  | reject r => exact ⟨_, runDecoded_reject r s⟩

/-- Settles O43: a busy phase enables a fetch, and whatever it decodes has a next state. -/
theorem busyBlockAlwaysSteps : Obligations.BusyBlockAlwaysSteps := by
  intro s hp hbox
  rw [step_inbox_nil hbox, blockStep, if_neg (by simp [Phase.isQuiescent_false.2 hp])]
  exact runDecoded_next s.fetch s

/-! ## Every decode ends -/

/-- At most `n` steps lead to `DONE` or `ERROR`. -/
def State.endsWithin (s : State) (n : Nat) : Prop :=
  ∃ k t, k ≤ n ∧ Host.Core.run Sys2Proof.core k s = .next t ∧ (t.phase = .done ∨ t.phase = .error)

namespace State.endsWithin

variable {s t : State} {n m : Nat}

theorem of_ended (h : s.phase = .done ∨ s.phase = .error) : s.endsWithin n := ⟨0, s, n.zero_le, rfl, h⟩

theorem of_step (hstep : step s = .next t) (h : t.endsWithin n) : s.endsWithin (n + 1) := by
  obtain ⟨k, u, hk, hrun, hu⟩ := h
  exact ⟨k + 1, u, Nat.succ_le_succ hk, (run_succ k hstep).trans hrun, hu⟩

/-- In a busy phase the block has a step, so it is enough that what that step leaves ends in time. -/
theorem of_blockStep (hp : s.phase = .header ∨ s.phase = .body) (hbox : s.inbox = [])
    (h : ∀ t, blockStep s = .next t → t.inbox = [] → t.endsWithin n) : s.endsWithin (n + 1) := by
  obtain ⟨t, hstep⟩ := busyBlockAlwaysSteps s hp hbox
  have hblock : blockStep s = .next t := step_inbox_nil hbox ▸ hstep
  exact of_step hstep (h t hblock ((blockStep_inbox hblock).trans hbox))

theorem mono (h : s.endsWithin n) (hle : n ≤ m) : s.endsWithin m := by
  obtain ⟨k, u, hk, hrun, hu⟩ := h
  exact ⟨k, u, hk.trans hle, hrun, hu⟩

end State.endsWithin

/-- An operator step ends the decode or leaves fewer bytes of the body. -/
theorem operatorStep_progress {s t : State} (hp : s.phase = .body) (h : blockStep s = .next t) :
    (t.phase = .done ∨ t.phase = .error) ∨ (t.phase = .body ∧ t.inLen - t.pos < s.inLen - s.pos) := by
  rcases operatorStep_cases hp h with
    ⟨p, n, k, rfl, -, -, -, hk⟩ | ⟨-, ⟨-, rfl⟩ | ⟨-, rfl⟩⟩ | ⟨-, rfl⟩ | ⟨-, rfl⟩
  · exact .inr ⟨hp, by simp; omega⟩
  · exact .inl (.inl rfl)
  · exact .inl (.inr rfl)
  · exact .inl (.inr rfl)
  · exact .inl (.inr rfl)

/-- The header step ends the decode or enters `BODY` at the first operator (40_header.md R128). -/
theorem headerStep_progress {s t : State} (hp : s.phase = .header) (h : blockStep s = .next t) :
    t.phase = .error ∨ (t.phase = .body ∧ t.pos = 14 ∧ t.inLen = s.inLen) := by
  rcases headerStep_cases hp h with
    rfl | rfl | ⟨w, ht, c, col, -, ⟨-, -, rfl⟩ | ⟨-, -, rfl⟩ | ⟨-, -, -, rfl⟩⟩
  · exact .inl rfl
  · exact .inl rfl
  · exact .inl rfl
  · exact .inl rfl
  · exact .inr ⟨rfl, rfl, rfl⟩

/-- By induction on the bytes left: an operator consumes one at least, and the step with none left is the last. -/
theorem State.endsWithin_body {s : State} (hp : s.phase = .body) (hbox : s.inbox = []) :
    s.endsWithin (s.inLen - s.pos + 1) := by
  induction hleft : s.inLen - s.pos using Nat.strong_induction_on generalizing s with
  | _ left ih =>
    refine .of_blockStep (.inr hp) hbox fun t hblock hbox' => ?_
    rcases operatorStep_progress hp hblock with hend | ⟨hbody, hless⟩
    · exact .of_ended hend
    · have hrest : t.endsWithin (t.inLen - t.pos + 1) := ih _ (hleft ▸ hless) hbody hbox' rfl
      exact hrest.mono (by omega)

theorem State.endsWithin_header {s : State} (hp : s.phase = .header) (hbox : s.inbox = []) :
    s.endsWithin (1 + (s.inLen - 14) + 1) := by
  refine .of_blockStep (.inl hp) hbox fun t hblock hbox' => ?_
  rcases headerStep_progress hp hblock with hend | ⟨hbody, hpos, hlen⟩
  · exact .of_ended (.inr hend)
  · have hrest := State.endsWithin_body hbody hbox'
    rw [hpos, hlen] at hrest
    exact hrest.mono (by omega)

/-- Settles O44: the body ends by induction on its bytes, and the header step comes before it. -/
theorem everyDecodeEnds : Obligations.EveryDecodeEnds := fun _ hbox =>
  ⟨fun hp => State.endsWithin_body hp hbox, fun hp => State.endsWithin_header hp hbox⟩

/-! ## The result at quiescence (R262) -/

theorem Memory.read_of_mem_offsets {m : Memory} {a : Nat} (h : a ∈ m.map Prod.fst) : ∃ b, m.read a = some b := by
  induction m with
  | nil => simp at h
  | cons c m ih =>
    rw [Memory.read_cons]
    split
    · exact ⟨_, rfl⟩
    · rename_i hne
      exact ih ((List.mem_cons.1 h).resolve_left (Ne.symm hne))

@[simp] theorem State.outBytes_length (s : State) : s.outBytes.length = s.outLen := by
  simp [State.outBytes]

/-- Below `OUT_LEN` every byte of `OUT` was appended, so the host reads it and no free value (20_memory.md R71). -/
theorem State.Inv.outBytes_getElem? {s : State} (h : s.Inv) {k : Nat} (hk : k < s.outLen) :
    s.outBytes[k]? = s.outMem.read k := by
  obtain ⟨b, hb⟩ := Memory.read_of_mem_offsets (h.outListed ▸ List.mem_range.2 hk)
  simp [State.outBytes, hk, hostReadOut, hb]

theorem State.result_done {s : State} (hp : s.phase = .done) :
    s.result = .ok s.width s.height s.channels s.colorspace s.outBytes := by
  simp [State.result, hp]

theorem State.result_error {s : State} (hp : s.phase = .error) {e : DecodeError} (he : s.errCode = some e) :
    s.result = .err e s.errInfo := by
  simp [State.result, hp, he]

/-- At `DONE` the output has the length the header asks for (R45). -/
theorem State.Inv.outLen_done {s : State} (h : s.Inv) (hp : s.phase = .done) :
    s.outLen = s.width.toNat * s.height.toNat * s.channels.toNat :=
  (h.doneLength hp).trans (h.header (h.afterHeader (.inr hp)).1).2

/-- Settles O50: the invariant gives the length and the bytes at `DONE`, and the error code at `ERROR`. -/
theorem resultAtQuiescence : Obligations.ResultAtQuiescence := by
  refine fun s h => ⟨fun hp => ⟨s.outBytes, s.result_done hp, ?_, fun k hk => h.outBytes_getElem? hk⟩, fun hp => ?_⟩
  · rw [State.outBytes_length, h.outLen_done hp]
  · obtain ⟨e, he⟩ := Option.ne_none_iff_exists'.1 (h.errorPhase.2 hp)
    exact ⟨e, he, s.result_error hp he⟩

end Sys2Proof.Machine
end
